-- ==== Sys2Proof/Word.lean ====
section
/-! DEFINITION. The machine's words (00_scope.md R7): 8-bit bytes and registers, 16-bit addresses and latches. -/

namespace Sys2Proof

/-- A byte: A, X, Y, SP, SR, `fetched`, `opcode`, `cycles` and every memory cell are 8 bits (R7). -/
abbrev Byte := BitVec 8

/-- A 16-bit word: PC, `temp`, `addr_abs`, `addr_rel` and every bus address (R7, R60). -/
abbrev Addr := BitVec 16

end Sys2Proof
end

