-- ==== Sys2Proof/Machine/Bits.lean ====
section
/-! DEFINITION. The spec's bit-field notation (00_scope.md R10): concatenation, high and low byte, zero and sign
extension. -/

namespace Sys2Proof

/-- `(hi : lo)`, the 16-bit value `hi * 256 + lo` (R10). -/
def concat (hi lo : Byte) : Addr := hi ++ lo

/-- `v[15:8]` (R10); the page number of an address (R15). -/
def hiByte (v : Addr) : Byte := v.extractLsb' 8 8

/-- `v[7:0]` (R10). -/
def loByte (v : Addr) : Byte := v.setWidth 8

/-- `zext_16(b)` (R10). -/
def zext (b : Byte) : Addr := b.setWidth 16

/-- `sext_16(b)` (R10): bit 7 copied into bits 15..8. -/
def sext (b : Byte) : Addr := b.signExtend 16

end Sys2Proof
end

