-- ==== Sys2Proof/Syntax.lean ====
section
/-! DEFINITION. The instruction set as syntax (00_scope.md R2, 30_encoding.md R91): the twelve addressing modes with their
operands, the 58 mnemonics of spec/opcode_table.json, and `Instr` with one constructor per mnemonic; a row of the table
is a constructor with an operand form (log 8). -/

namespace Sys2Proof

/-- The twelve addressing modes, by the spec's abbreviations (R3, R91; 90_conflicts.md C1). -/
inductive Mode where
  | imp | imm | zp0 | zpx | zpy | rel | abs | abx | aby | ind | izx | izy
  deriving DecidableEq, Repr

/-- A mode with its operand as R91 and R92 form it: one byte, or a 16-bit word assembled little-endian. -/
inductive Operand where
  | imp
  | imm (nn : Byte)
  | zp0 (aa : Byte)
  | zpx (aa : Byte)
  | zpy (aa : Byte)
  | rel (dd : Byte)
  | abs (hhll : Addr)
  | abx (hhll : Addr)
  | aby (hhll : Addr)
  | ind (hhll : Addr)
  | izx (tt : Byte)
  | izy (tt : Byte)
  deriving DecidableEq, Repr

/-- The mode of an operand. -/
def Operand.mode : Operand → Mode
  | .imp => .imp
  | .imm _ => .imm
  | .zp0 _ => .zp0
  | .zpx _ => .zpx
  | .zpy _ => .zpy
  | .rel _ => .rel
  | .abs _ => .abs
  | .abx _ => .abx
  | .aby _ => .aby
  | .ind _ => .ind
  | .izx _ => .izx
  | .izy _ => .izy

/-- The 56 mnemonics of R2 and the table's two names for its illegal slots: `nopStar` is `nop*` (R104), `ill` is `ill`
(R105). -/
inductive Mnemonic where
  | adc | sbc | and | ora | eor | bit | cmp | cpx | cpy
  | asl | lsr | rol | ror
  | inc | dec | inx | iny | dex | dey
  | bcc | bcs | beq | bmi | bne | bpl | bvc | bvs | jmp
  | pha | php | pla | plp | jsr | rts | brk | rti
  | lda | ldx | ldy | sta | stx | sty | tax | tay | txa | tya | tsx | txs
  | clc | cld | cli | clv | sec | sed | sei | nop
  | nopStar | ill
  deriving DecidableEq, Repr

/-- The instructions. A branch carries its displacement byte, JSR its target, an illegal slot its opcode byte; the
instructions with a single Implied slot carry nothing. -/
inductive Instr where
  | adc (m : Operand)
  | sbc (m : Operand)
  | and (m : Operand)
  | ora (m : Operand)
  | eor (m : Operand)
  | bit (m : Operand)
  | cmp (m : Operand)
  | cpx (m : Operand)
  | cpy (m : Operand)
  | asl (m : Operand)
  | lsr (m : Operand)
  | rol (m : Operand)
  | ror (m : Operand)
  | inc (m : Operand)
  | dec (m : Operand)
  | inx
  | iny
  | dex
  | dey
  | bcc (dd : Byte)
  | bcs (dd : Byte)
  | beq (dd : Byte)
  | bmi (dd : Byte)
  | bne (dd : Byte)
  | bpl (dd : Byte)
  | bvc (dd : Byte)
  | bvs (dd : Byte)
  | jmp (m : Operand)
  | pha
  | php
  | pla
  | plp
  | jsr (target : Addr)
  | rts
  | brk
  | rti
  | lda (m : Operand)
  | ldx (m : Operand)
  | ldy (m : Operand)
  | sta (m : Operand)
  | stx (m : Operand)
  | sty (m : Operand)
  | tax
  | tay
  | txa
  | tya
  | tsx
  | txs
  | clc
  | cld
  | cli
  | clv
  | sec
  | sed
  | sei
  | nop
  | nopStar (slot : Byte)
  | ill (slot : Byte)
  deriving DecidableEq, Repr

/-- The mnemonic an instruction stands under in the table. -/
def Instr.mnemonic : Instr → Mnemonic
  | .adc _ => .adc
  | .sbc _ => .sbc
  | .and _ => .and
  | .ora _ => .ora
  | .eor _ => .eor
  | .bit _ => .bit
  | .cmp _ => .cmp
  | .cpx _ => .cpx
  | .cpy _ => .cpy
  | .asl _ => .asl
  | .lsr _ => .lsr
  | .rol _ => .rol
  | .ror _ => .ror
  | .inc _ => .inc
  | .dec _ => .dec
  | .inx => .inx
  | .iny => .iny
  | .dex => .dex
  | .dey => .dey
  | .bcc _ => .bcc
  | .bcs _ => .bcs
  | .beq _ => .beq
  | .bmi _ => .bmi
  | .bne _ => .bne
  | .bpl _ => .bpl
  | .bvc _ => .bvc
  | .bvs _ => .bvs
  | .jmp _ => .jmp
  | .pha => .pha
  | .php => .php
  | .pla => .pla
  | .plp => .plp
  | .jsr _ => .jsr
  | .rts => .rts
  | .brk => .brk
  | .rti => .rti
  | .lda _ => .lda
  | .ldx _ => .ldx
  | .ldy _ => .ldy
  | .sta _ => .sta
  | .stx _ => .stx
  | .sty _ => .sty
  | .tax => .tax
  | .tay => .tay
  | .txa => .txa
  | .tya => .tya
  | .tsx => .tsx
  | .txs => .txs
  | .clc => .clc
  | .cld => .cld
  | .cli => .cli
  | .clv => .clv
  | .sec => .sec
  | .sed => .sed
  | .sei => .sei
  | .nop => .nop
  | .nopStar _ => .nopStar
  | .ill _ => .ill

/-- The operand of an instruction: a branch is Relative, JSR is Absolute, every other instruction without an operand
field is Implied (R91, R101). -/
def Instr.operand : Instr → Operand
  | .adc m | .sbc m | .and m | .ora m | .eor m | .bit m | .cmp m | .cpx m | .cpy m => m
  | .asl m | .lsr m | .rol m | .ror m | .inc m | .dec m | .jmp m => m
  | .lda m | .ldx m | .ldy m | .sta m | .stx m | .sty m => m
  | .bcc dd | .bcs dd | .beq dd | .bmi dd | .bne dd | .bpl dd | .bvc dd | .bvs dd => .rel dd
  | .jsr target => .abs target
  | .inx | .iny | .dex | .dey | .pha | .php | .pla | .plp | .rts | .brk | .rti => .imp
  | .tax | .tay | .txa | .tya | .tsx | .txs | .clc | .cld | .cli | .clv | .sec | .sed | .sei | .nop => .imp
  | .nopStar _ | .ill _ => .imp

end Sys2Proof
end

