-- ==== Sys2Proof/WellFormed.lean ====
section
/-! DEFINITION. Which instructions the table encodes: the modes each mnemonic has, from the "Encodings:" line of its
instruction rule (42 to 48 files), and the opcode bytes of the illegal slots (30_encoding.md R104, R105). -/

namespace Sys2Proof

/-- The modes of a mnemonic, from its instruction rule. -/
def Mnemonic.modes : Mnemonic → List Mode
  | .adc | .sbc | .and | .ora | .eor | .cmp | .lda => [.imm, .zp0, .zpx, .abs, .abx, .aby, .izx, .izy]
  | .sta => [.zp0, .zpx, .abs, .abx, .aby, .izx, .izy]
  | .bit => [.zp0, .abs]
  | .cpx | .cpy => [.imm, .zp0, .abs]
  | .asl | .lsr | .rol | .ror => [.imp, .zp0, .zpx, .abs, .abx]
  | .inc | .dec => [.zp0, .zpx, .abs, .abx]
  | .ldx => [.imm, .zp0, .zpy, .abs, .aby]
  | .ldy => [.imm, .zp0, .zpx, .abs, .abx]
  | .stx => [.zp0, .zpy, .abs]
  | .sty => [.zp0, .zpx, .abs]
  | .jmp => [.abs, .ind]
  | .jsr => [.abs]
  | .bcc | .bcs | .beq | .bmi | .bne | .bpl | .bvc | .bvs => [.rel]
  | .inx | .iny | .dex | .dey | .pha | .php | .pla | .plp | .rts | .brk | .rti => [.imp]
  | .tax | .tay | .txa | .tya | .tsx | .txs | .clc | .cld | .cli | .clv | .sec | .sed | .sei | .nop => [.imp]
  | .nopStar | .ill => [.imp]

/-- The 28 illegal slots with the NOP handler (R104). -/
def nopStarSlots : List Byte :=
  [0x04, 0x0C, 0x14, 0x1A, 0x1C, 0x34, 0x3A, 0x3C, 0x44, 0x54, 0x5A, 0x5C, 0x64, 0x74] ++
  [0x7A, 0x7C, 0x80, 0x82, 0x89, 0x9C, 0xC2, 0xD4, 0xDA, 0xDC, 0xE2, 0xF4, 0xFA, 0xFC]

/-- The 77 illegal slots with the illegal handler (R105). -/
def illSlots : List Byte :=
  [0x02, 0x03, 0x07, 0x0B, 0x0F, 0x12, 0x13, 0x17, 0x1B, 0x1F, 0x22, 0x23, 0x27, 0x2B, 0x2F] ++
  [0x32, 0x33, 0x37, 0x3B, 0x3F, 0x42, 0x43, 0x47, 0x4B, 0x4F, 0x52, 0x53, 0x57, 0x5B, 0x5F] ++
  [0x62, 0x63, 0x67, 0x6B, 0x6F, 0x72, 0x73, 0x77, 0x7B, 0x7F, 0x83, 0x87, 0x8B, 0x8F, 0x92] ++
  [0x93, 0x97, 0x9B, 0x9E, 0x9F, 0xA3, 0xA7, 0xAB, 0xAF, 0xB2, 0xB3, 0xB7, 0xBB, 0xBF, 0xC3] ++
  [0xC7, 0xCB, 0xCF, 0xD2, 0xD3, 0xD7, 0xDB, 0xDF, 0xE3, 0xE7, 0xEB, 0xEF, 0xF2, 0xF3, 0xF7] ++
  [0xFB, 0xFF]

/-- An illegal slot's opcode byte is one of its kind's; every other instruction has no slot to check. -/
def Instr.slotOk : Instr → Bool
  | .nopStar slot => nopStarSlots.contains slot
  | .ill slot => illSlots.contains slot
  | _ => true

/-- The instruction has an encoding: its mode is one of its mnemonic's, and an illegal slot's byte is in its list. -/
def Instr.wellFormed (i : Instr) : Bool :=
  i.mnemonic.modes.contains i.operand.mode && i.slotOk

end Sys2Proof
end

