-- ==== Sys2Proof/Decode.lean ====
section
/-! DEFINITION. The decoder (30_encoding.md R90 to R107): the 256-slot table indexed by the opcode byte, operand assembly,
`decode` on any list of bytes, and the encoder, written from the spec's other listing of the slots (R101, R104, R105). -/

namespace Sys2Proof

/-- The number of operand bytes a mode consumes (R107; 41_addressing_modes.md R153). -/
def Mode.operandBytes : Mode → Nat
  | .imp => 0
  | .imm | .zp0 | .zpx | .zpy | .rel | .izx | .izy => 1
  | .abs | .abx | .aby | .ind => 2

/-- The length of an instruction in bytes (R107). -/
def Instr.length (i : Instr) : Nat := 1 + i.operand.mode.operandBytes

/-- An instruction descriptor (10_state.md R40): mnemonic, addressing mode, base cycle count. -/
structure Descriptor where
  mnemonic : Mnemonic
  mode : Mode
  base : Byte
  deriving DecidableEq, Repr

/-- Row 0x of R100. -/
def slotRow0 : List Descriptor := [
  ⟨.brk, .imp, 7⟩, ⟨.ora, .izx, 6⟩, ⟨.ill, .imp, 2⟩, ⟨.ill, .imp, 8⟩, ⟨.nopStar, .imp, 3⟩, ⟨.ora, .zp0, 3⟩, ⟨.asl, .zp0, 5⟩, ⟨.ill, .imp, 5⟩,
  ⟨.php, .imp, 3⟩, ⟨.ora, .imm, 2⟩, ⟨.asl, .imp, 2⟩, ⟨.ill, .imp, 2⟩, ⟨.nopStar, .imp, 4⟩, ⟨.ora, .abs, 4⟩, ⟨.asl, .abs, 6⟩, ⟨.ill, .imp, 6⟩]

/-- Row 1x of R100. -/
def slotRow1 : List Descriptor := [
  ⟨.bpl, .rel, 2⟩, ⟨.ora, .izy, 5⟩, ⟨.ill, .imp, 2⟩, ⟨.ill, .imp, 8⟩, ⟨.nopStar, .imp, 4⟩, ⟨.ora, .zpx, 4⟩, ⟨.asl, .zpx, 6⟩, ⟨.ill, .imp, 6⟩,
  ⟨.clc, .imp, 2⟩, ⟨.ora, .aby, 4⟩, ⟨.nopStar, .imp, 2⟩, ⟨.ill, .imp, 7⟩, ⟨.nopStar, .imp, 4⟩, ⟨.ora, .abx, 4⟩, ⟨.asl, .abx, 7⟩, ⟨.ill, .imp, 7⟩]

/-- Row 2x of R100. -/
def slotRow2 : List Descriptor := [
  ⟨.jsr, .abs, 6⟩, ⟨.and, .izx, 6⟩, ⟨.ill, .imp, 2⟩, ⟨.ill, .imp, 8⟩, ⟨.bit, .zp0, 3⟩, ⟨.and, .zp0, 3⟩, ⟨.rol, .zp0, 5⟩, ⟨.ill, .imp, 5⟩,
  ⟨.plp, .imp, 4⟩, ⟨.and, .imm, 2⟩, ⟨.rol, .imp, 2⟩, ⟨.ill, .imp, 2⟩, ⟨.bit, .abs, 4⟩, ⟨.and, .abs, 4⟩, ⟨.rol, .abs, 6⟩, ⟨.ill, .imp, 6⟩]

/-- Row 3x of R100. -/
def slotRow3 : List Descriptor := [
  ⟨.bmi, .rel, 2⟩, ⟨.and, .izy, 5⟩, ⟨.ill, .imp, 2⟩, ⟨.ill, .imp, 8⟩, ⟨.nopStar, .imp, 4⟩, ⟨.and, .zpx, 4⟩, ⟨.rol, .zpx, 6⟩, ⟨.ill, .imp, 6⟩,
  ⟨.sec, .imp, 2⟩, ⟨.and, .aby, 4⟩, ⟨.nopStar, .imp, 2⟩, ⟨.ill, .imp, 7⟩, ⟨.nopStar, .imp, 4⟩, ⟨.and, .abx, 4⟩, ⟨.rol, .abx, 7⟩, ⟨.ill, .imp, 7⟩]

/-- Row 4x of R100. -/
def slotRow4 : List Descriptor := [
  ⟨.rti, .imp, 6⟩, ⟨.eor, .izx, 6⟩, ⟨.ill, .imp, 2⟩, ⟨.ill, .imp, 8⟩, ⟨.nopStar, .imp, 3⟩, ⟨.eor, .zp0, 3⟩, ⟨.lsr, .zp0, 5⟩, ⟨.ill, .imp, 5⟩,
  ⟨.pha, .imp, 3⟩, ⟨.eor, .imm, 2⟩, ⟨.lsr, .imp, 2⟩, ⟨.ill, .imp, 2⟩, ⟨.jmp, .abs, 3⟩, ⟨.eor, .abs, 4⟩, ⟨.lsr, .abs, 6⟩, ⟨.ill, .imp, 6⟩]

/-- Row 5x of R100. -/
def slotRow5 : List Descriptor := [
  ⟨.bvc, .rel, 2⟩, ⟨.eor, .izy, 5⟩, ⟨.ill, .imp, 2⟩, ⟨.ill, .imp, 8⟩, ⟨.nopStar, .imp, 4⟩, ⟨.eor, .zpx, 4⟩, ⟨.lsr, .zpx, 6⟩, ⟨.ill, .imp, 6⟩,
  ⟨.cli, .imp, 2⟩, ⟨.eor, .aby, 4⟩, ⟨.nopStar, .imp, 2⟩, ⟨.ill, .imp, 7⟩, ⟨.nopStar, .imp, 4⟩, ⟨.eor, .abx, 4⟩, ⟨.lsr, .abx, 7⟩, ⟨.ill, .imp, 7⟩]

/-- Row 6x of R100. -/
def slotRow6 : List Descriptor := [
  ⟨.rts, .imp, 6⟩, ⟨.adc, .izx, 6⟩, ⟨.ill, .imp, 2⟩, ⟨.ill, .imp, 8⟩, ⟨.nopStar, .imp, 3⟩, ⟨.adc, .zp0, 3⟩, ⟨.ror, .zp0, 5⟩, ⟨.ill, .imp, 5⟩,
  ⟨.pla, .imp, 4⟩, ⟨.adc, .imm, 2⟩, ⟨.ror, .imp, 2⟩, ⟨.ill, .imp, 2⟩, ⟨.jmp, .ind, 5⟩, ⟨.adc, .abs, 4⟩, ⟨.ror, .abs, 6⟩, ⟨.ill, .imp, 6⟩]

/-- Row 7x of R100. -/
def slotRow7 : List Descriptor := [
  ⟨.bvs, .rel, 2⟩, ⟨.adc, .izy, 5⟩, ⟨.ill, .imp, 2⟩, ⟨.ill, .imp, 8⟩, ⟨.nopStar, .imp, 4⟩, ⟨.adc, .zpx, 4⟩, ⟨.ror, .zpx, 6⟩, ⟨.ill, .imp, 6⟩,
  ⟨.sei, .imp, 2⟩, ⟨.adc, .aby, 4⟩, ⟨.nopStar, .imp, 2⟩, ⟨.ill, .imp, 7⟩, ⟨.nopStar, .imp, 4⟩, ⟨.adc, .abx, 4⟩, ⟨.ror, .abx, 7⟩, ⟨.ill, .imp, 7⟩]

/-- Row 8x of R100. -/
def slotRow8 : List Descriptor := [
  ⟨.nopStar, .imp, 2⟩, ⟨.sta, .izx, 6⟩, ⟨.nopStar, .imp, 2⟩, ⟨.ill, .imp, 6⟩, ⟨.sty, .zp0, 3⟩, ⟨.sta, .zp0, 3⟩, ⟨.stx, .zp0, 3⟩, ⟨.ill, .imp, 3⟩,
  ⟨.dey, .imp, 2⟩, ⟨.nopStar, .imp, 2⟩, ⟨.txa, .imp, 2⟩, ⟨.ill, .imp, 2⟩, ⟨.sty, .abs, 4⟩, ⟨.sta, .abs, 4⟩, ⟨.stx, .abs, 4⟩, ⟨.ill, .imp, 4⟩]

/-- Row 9x of R100. -/
def slotRow9 : List Descriptor := [
  ⟨.bcc, .rel, 2⟩, ⟨.sta, .izy, 6⟩, ⟨.ill, .imp, 2⟩, ⟨.ill, .imp, 6⟩, ⟨.sty, .zpx, 4⟩, ⟨.sta, .zpx, 4⟩, ⟨.stx, .zpy, 4⟩, ⟨.ill, .imp, 4⟩,
  ⟨.tya, .imp, 2⟩, ⟨.sta, .aby, 5⟩, ⟨.txs, .imp, 2⟩, ⟨.ill, .imp, 5⟩, ⟨.nopStar, .imp, 5⟩, ⟨.sta, .abx, 5⟩, ⟨.ill, .imp, 5⟩, ⟨.ill, .imp, 5⟩]

/-- Row Ax of R100. -/
def slotRowA : List Descriptor := [
  ⟨.ldy, .imm, 2⟩, ⟨.lda, .izx, 6⟩, ⟨.ldx, .imm, 2⟩, ⟨.ill, .imp, 6⟩, ⟨.ldy, .zp0, 3⟩, ⟨.lda, .zp0, 3⟩, ⟨.ldx, .zp0, 3⟩, ⟨.ill, .imp, 3⟩,
  ⟨.tay, .imp, 2⟩, ⟨.lda, .imm, 2⟩, ⟨.tax, .imp, 2⟩, ⟨.ill, .imp, 2⟩, ⟨.ldy, .abs, 4⟩, ⟨.lda, .abs, 4⟩, ⟨.ldx, .abs, 4⟩, ⟨.ill, .imp, 4⟩]

/-- Row Bx of R100. -/
def slotRowB : List Descriptor := [
  ⟨.bcs, .rel, 2⟩, ⟨.lda, .izy, 5⟩, ⟨.ill, .imp, 2⟩, ⟨.ill, .imp, 5⟩, ⟨.ldy, .zpx, 4⟩, ⟨.lda, .zpx, 4⟩, ⟨.ldx, .zpy, 4⟩, ⟨.ill, .imp, 4⟩,
  ⟨.clv, .imp, 2⟩, ⟨.lda, .aby, 4⟩, ⟨.tsx, .imp, 2⟩, ⟨.ill, .imp, 4⟩, ⟨.ldy, .abx, 4⟩, ⟨.lda, .abx, 4⟩, ⟨.ldx, .aby, 4⟩, ⟨.ill, .imp, 4⟩]

/-- Row Cx of R100. -/
def slotRowC : List Descriptor := [
  ⟨.cpy, .imm, 2⟩, ⟨.cmp, .izx, 6⟩, ⟨.nopStar, .imp, 2⟩, ⟨.ill, .imp, 8⟩, ⟨.cpy, .zp0, 3⟩, ⟨.cmp, .zp0, 3⟩, ⟨.dec, .zp0, 5⟩, ⟨.ill, .imp, 5⟩,
  ⟨.iny, .imp, 2⟩, ⟨.cmp, .imm, 2⟩, ⟨.dex, .imp, 2⟩, ⟨.ill, .imp, 2⟩, ⟨.cpy, .abs, 4⟩, ⟨.cmp, .abs, 4⟩, ⟨.dec, .abs, 6⟩, ⟨.ill, .imp, 6⟩]

/-- Row Dx of R100. -/
def slotRowD : List Descriptor := [
  ⟨.bne, .rel, 2⟩, ⟨.cmp, .izy, 5⟩, ⟨.ill, .imp, 2⟩, ⟨.ill, .imp, 8⟩, ⟨.nopStar, .imp, 4⟩, ⟨.cmp, .zpx, 4⟩, ⟨.dec, .zpx, 6⟩, ⟨.ill, .imp, 6⟩,
  ⟨.cld, .imp, 2⟩, ⟨.cmp, .aby, 4⟩, ⟨.nopStar, .imp, 2⟩, ⟨.ill, .imp, 7⟩, ⟨.nopStar, .imp, 4⟩, ⟨.cmp, .abx, 4⟩, ⟨.dec, .abx, 7⟩, ⟨.ill, .imp, 7⟩]

/-- Row Ex of R100. -/
def slotRowE : List Descriptor := [
  ⟨.cpx, .imm, 2⟩, ⟨.sbc, .izx, 6⟩, ⟨.nopStar, .imp, 2⟩, ⟨.ill, .imp, 8⟩, ⟨.cpx, .zp0, 3⟩, ⟨.sbc, .zp0, 3⟩, ⟨.inc, .zp0, 5⟩, ⟨.ill, .imp, 5⟩,
  ⟨.inx, .imp, 2⟩, ⟨.sbc, .imm, 2⟩, ⟨.nop, .imp, 2⟩, ⟨.ill, .imp, 2⟩, ⟨.cpx, .abs, 4⟩, ⟨.sbc, .abs, 4⟩, ⟨.inc, .abs, 6⟩, ⟨.ill, .imp, 6⟩]

/-- Row Fx of R100. -/
def slotRowF : List Descriptor := [
  ⟨.beq, .rel, 2⟩, ⟨.sbc, .izy, 5⟩, ⟨.ill, .imp, 2⟩, ⟨.ill, .imp, 8⟩, ⟨.nopStar, .imp, 4⟩, ⟨.sbc, .zpx, 4⟩, ⟨.inc, .zpx, 6⟩, ⟨.ill, .imp, 6⟩,
  ⟨.sed, .imp, 2⟩, ⟨.sbc, .aby, 4⟩, ⟨.nopStar, .imp, 2⟩, ⟨.ill, .imp, 7⟩, ⟨.nopStar, .imp, 4⟩, ⟨.sbc, .abx, 4⟩, ⟨.inc, .abx, 7⟩, ⟨.ill, .imp, 7⟩]

/-- `TABLE` (R100): one descriptor per opcode slot, 256 of them. -/
def slotTable : List Descriptor :=
  slotRow0 ++ slotRow1 ++ slotRow2 ++ slotRow3 ++ slotRow4 ++ slotRow5 ++ slotRow6 ++ slotRow7 ++
  slotRow8 ++ slotRow9 ++ slotRowA ++ slotRowB ++ slotRowC ++ slotRowD ++ slotRowE ++ slotRowF

/-- `TABLE[opcode]` (R93). The table has 256 rows, so the default is never taken (Laws/Decode.lean). -/
def descriptor (op : Byte) : Descriptor := slotTable.getD op.toNat ⟨.ill, .imp, 2⟩

/-- The operand a mode forms from the one or two bytes after the opcode (R91, R92): words are little-endian. -/
def operandOf (mode : Mode) (b1 b2 : Byte) : Operand :=
  match mode with
  | .imp => .imp
  | .imm => .imm b1
  | .zp0 => .zp0 b1
  | .zpx => .zpx b1
  | .zpy => .zpy b1
  | .rel => .rel b1
  | .abs => .abs (concat b2 b1)
  | .abx => .abx (concat b2 b1)
  | .aby => .aby (concat b2 b1)
  | .ind => .ind (concat b2 b1)
  | .izx => .izx b1
  | .izy => .izy b1

/-- The 16-bit payload of an operand, a byte zero-extended. -/
def Operand.word : Operand → Addr
  | .imp => 0
  | .imm b | .zp0 b | .zpx b | .zpy b | .rel b | .izx b | .izy b => zext b
  | .abs w | .abx w | .aby w | .ind w => w

/-- The first operand byte (R91). -/
def Operand.byte (m : Operand) : Byte := loByte m.word

/-- The instruction of a slot: its mnemonic's constructor, applied to the operand (to the slot itself for an illegal
one). -/
def Instr.ofSlot (mn : Mnemonic) (op : Byte) (m : Operand) : Instr :=
  match mn with
  | .adc => .adc m
  | .sbc => .sbc m
  | .and => .and m
  | .ora => .ora m
  | .eor => .eor m
  | .bit => .bit m
  | .cmp => .cmp m
  | .cpx => .cpx m
  | .cpy => .cpy m
  | .asl => .asl m
  | .lsr => .lsr m
  | .rol => .rol m
  | .ror => .ror m
  | .inc => .inc m
  | .dec => .dec m
  | .jmp => .jmp m
  | .lda => .lda m
  | .ldx => .ldx m
  | .ldy => .ldy m
  | .sta => .sta m
  | .stx => .stx m
  | .sty => .sty m
  | .bcc => .bcc m.byte
  | .bcs => .bcs m.byte
  | .beq => .beq m.byte
  | .bmi => .bmi m.byte
  | .bne => .bne m.byte
  | .bpl => .bpl m.byte
  | .bvc => .bvc m.byte
  | .bvs => .bvs m.byte
  | .jsr => .jsr m.word
  | .inx => .inx
  | .iny => .iny
  | .dex => .dex
  | .dey => .dey
  | .pha => .pha
  | .php => .php
  | .pla => .pla
  | .plp => .plp
  | .rts => .rts
  | .brk => .brk
  | .rti => .rti
  | .tax => .tax
  | .tay => .tay
  | .txa => .txa
  | .tya => .tya
  | .tsx => .tsx
  | .txs => .txs
  | .clc => .clc
  | .cld => .cld
  | .cli => .cli
  | .clv => .clv
  | .sec => .sec
  | .sed => .sed
  | .sei => .sei
  | .nop => .nop
  | .nopStar => .nopStar op
  | .ill => .ill op

/-- The instruction that starts with opcode `b0`; `b1` and `b2` are the bytes after it, used as far as the mode needs
them (R90, R93). -/
def decodeAt (b0 b1 b2 : Byte) : Instr :=
  Instr.ofSlot (descriptor b0).mnemonic b0 (operandOf (descriptor b0).mode b1 b2)

/-- Why a list of bytes is not the start of an instruction. Every opcode byte is valid (R94, R103), so only the length
can fail; the machine itself reads its bytes from a memory that never runs out. -/
inductive DecodeReject where
  | noOpcode
  | truncated (opcode : Byte)
  deriving DecidableEq, Repr

/-- Decode the first instruction of a list of bytes; the rest of the list is returned. -/
def decode : List Byte → Except DecodeReject (Instr × List Byte)
  | [] => .error .noOpcode
  | op :: rest =>
    match (descriptor op).mode.operandBytes, rest with
    | 0, rest => .ok (decodeAt op 0 0, rest)
    | 1, b1 :: rest => .ok (decodeAt op b1 0, rest)
    | 2, b1 :: b2 :: rest => .ok (decodeAt op b1 b2, rest)
    | _, _ => .error (.truncated op)

/-- The official slots of a mnemonic, by mode (R101). -/
def Mnemonic.slots : Mnemonic → List (Mode × Byte)
  | .adc => [(.izx, 0x61), (.zp0, 0x65), (.imm, 0x69), (.abs, 0x6D), (.izy, 0x71), (.zpx, 0x75), (.aby, 0x79), (.abx, 0x7D)]
  | .and => [(.izx, 0x21), (.zp0, 0x25), (.imm, 0x29), (.abs, 0x2D), (.izy, 0x31), (.zpx, 0x35), (.aby, 0x39), (.abx, 0x3D)]
  | .asl => [(.zp0, 0x06), (.imp, 0x0A), (.abs, 0x0E), (.zpx, 0x16), (.abx, 0x1E)]
  | .bcc => [(.rel, 0x90)]
  | .bcs => [(.rel, 0xB0)]
  | .beq => [(.rel, 0xF0)]
  | .bit => [(.zp0, 0x24), (.abs, 0x2C)]
  | .bmi => [(.rel, 0x30)]
  | .bne => [(.rel, 0xD0)]
  | .bpl => [(.rel, 0x10)]
  | .brk => [(.imp, 0x00)]
  | .bvc => [(.rel, 0x50)]
  | .bvs => [(.rel, 0x70)]
  | .clc => [(.imp, 0x18)]
  | .cld => [(.imp, 0xD8)]
  | .cli => [(.imp, 0x58)]
  | .clv => [(.imp, 0xB8)]
  | .cmp => [(.izx, 0xC1), (.zp0, 0xC5), (.imm, 0xC9), (.abs, 0xCD), (.izy, 0xD1), (.zpx, 0xD5), (.aby, 0xD9), (.abx, 0xDD)]
  | .cpx => [(.imm, 0xE0), (.zp0, 0xE4), (.abs, 0xEC)]
  | .cpy => [(.imm, 0xC0), (.zp0, 0xC4), (.abs, 0xCC)]
  | .dec => [(.zp0, 0xC6), (.abs, 0xCE), (.zpx, 0xD6), (.abx, 0xDE)]
  | .dex => [(.imp, 0xCA)]
  | .dey => [(.imp, 0x88)]
  | .eor => [(.izx, 0x41), (.zp0, 0x45), (.imm, 0x49), (.abs, 0x4D), (.izy, 0x51), (.zpx, 0x55), (.aby, 0x59), (.abx, 0x5D)]
  | .inc => [(.zp0, 0xE6), (.abs, 0xEE), (.zpx, 0xF6), (.abx, 0xFE)]
  | .inx => [(.imp, 0xE8)]
  | .iny => [(.imp, 0xC8)]
  | .jmp => [(.abs, 0x4C), (.ind, 0x6C)]
  | .jsr => [(.abs, 0x20)]
  | .lda => [(.izx, 0xA1), (.zp0, 0xA5), (.imm, 0xA9), (.abs, 0xAD), (.izy, 0xB1), (.zpx, 0xB5), (.aby, 0xB9), (.abx, 0xBD)]
  | .ldx => [(.imm, 0xA2), (.zp0, 0xA6), (.abs, 0xAE), (.zpy, 0xB6), (.aby, 0xBE)]
  | .ldy => [(.imm, 0xA0), (.zp0, 0xA4), (.abs, 0xAC), (.zpx, 0xB4), (.abx, 0xBC)]
  | .lsr => [(.zp0, 0x46), (.imp, 0x4A), (.abs, 0x4E), (.zpx, 0x56), (.abx, 0x5E)]
  | .nop => [(.imp, 0xEA)]
  | .ora => [(.izx, 0x01), (.zp0, 0x05), (.imm, 0x09), (.abs, 0x0D), (.izy, 0x11), (.zpx, 0x15), (.aby, 0x19), (.abx, 0x1D)]
  | .pha => [(.imp, 0x48)]
  | .php => [(.imp, 0x08)]
  | .pla => [(.imp, 0x68)]
  | .plp => [(.imp, 0x28)]
  | .rol => [(.zp0, 0x26), (.imp, 0x2A), (.abs, 0x2E), (.zpx, 0x36), (.abx, 0x3E)]
  | .ror => [(.zp0, 0x66), (.imp, 0x6A), (.abs, 0x6E), (.zpx, 0x76), (.abx, 0x7E)]
  | .rti => [(.imp, 0x40)]
  | .rts => [(.imp, 0x60)]
  | .sbc => [(.izx, 0xE1), (.zp0, 0xE5), (.imm, 0xE9), (.abs, 0xED), (.izy, 0xF1), (.zpx, 0xF5), (.aby, 0xF9), (.abx, 0xFD)]
  | .sec => [(.imp, 0x38)]
  | .sed => [(.imp, 0xF8)]
  | .sei => [(.imp, 0x78)]
  | .sta => [(.izx, 0x81), (.zp0, 0x85), (.abs, 0x8D), (.izy, 0x91), (.zpx, 0x95), (.aby, 0x99), (.abx, 0x9D)]
  | .stx => [(.zp0, 0x86), (.abs, 0x8E), (.zpy, 0x96)]
  | .sty => [(.zp0, 0x84), (.abs, 0x8C), (.zpx, 0x94)]
  | .tax => [(.imp, 0xAA)]
  | .tay => [(.imp, 0xA8)]
  | .tsx => [(.imp, 0xBA)]
  | .txa => [(.imp, 0x8A)]
  | .txs => [(.imp, 0x9A)]
  | .tya => [(.imp, 0x98)]
  | .nopStar | .ill => []

/-- The opcode byte of an instruction; `none` for one that the table does not encode. -/
def Instr.opcode? (i : Instr) : Option Byte :=
  match i with
  | .nopStar slot => if nopStarSlots.contains slot then some slot else none
  | .ill slot => if illSlots.contains slot then some slot else none
  | i => i.mnemonic.slots.lookup i.operand.mode

/-- The bytes after the opcode (R91): a word's low byte first. -/
def Operand.bytes : Operand → List Byte
  | .imp => []
  | .imm b | .zp0 b | .zpx b | .zpy b | .rel b | .izx b | .izy b => [b]
  | .abs w | .abx w | .aby w | .ind w => [loByte w, hiByte w]

/-- The bytes of a well-formed instruction, at consecutive addresses (R90); no bytes for any other term. -/
def encode (i : Instr) : List Byte :=
  match i.opcode? with
  | some op => op :: i.operand.bytes
  | none => []

/-- Byte `k` of a number whose bits are counted from the first byte, least significant first. -/
def byteOf (w k : Nat) : Byte := BitVec.ofNat 8 (w / 2 ^ (8 * k))

/-- The three bytes of a table word of `nbits` bits: the bits above `nbits` are 0. -/
def tableBytes (nbits w : Nat) : List Byte :=
  [byteOf (w % 2 ^ nbits) 0, byteOf (w % 2 ^ nbits) 1, byteOf (w % 2 ^ nbits) 2]

/-- The instruction `decode` reads from a table word. -/
def decodeTableWord (nbits w : Nat) : Option Instr :=
  match decode (tableBytes nbits w) with
  | .ok (i, _) => some i
  | .error _ => none

end Sys2Proof
end

