-- ==== Sys2Proof/Machine/Flags.lean ====
section
/-! DEFINITION. The status register (10_state.md R26, R27) and every flag computation of the spec: SetZN (R12), the sum of
ADC and SBC (R161, R162), BIT (R166), the compares (R167 to R169), the shifts (R181 to R184), and the status bytes that
pushes, reloads and interrupt entries make (R221, R223, R228, R229, R303, R306). -/

namespace Sys2Proof.Machine

/-- The eight flags of SR (R27). -/
inductive Flag where
  | c | z | i | d | b | u | v | n
  deriving DecidableEq, Repr

/-- The flag's bit in SR (R27). -/
def Flag.bit : Flag → Nat
  | .c => 0
  | .z => 1
  | .i => 2
  | .d => 3
  | .b => 4
  | .u => 5
  | .v => 6
  | .n => 7

/-- The flag's mask in SR (R27). -/
def Flag.mask : Flag → Byte
  | .c => 0x01
  | .z => 0x02
  | .i => 0x04
  | .d => 0x08
  | .b => 0x10
  | .u => 0x20
  | .v => 0x40
  | .n => 0x80

/-- `getFlag(bit)` (R26). -/
def getFlag (sr : Byte) (f : Flag) : Bool := sr.getLsbD f.bit

/-- `setFlag(bit, on)` (R26). -/
def setFlag (f : Flag) (on : Bool) (sr : Byte) : Byte :=
  if on then sr ||| f.mask else sr &&& ~~~f.mask

/-- `zext_16(SR.C)`. -/
def carryWord (sr : Byte) : Addr := if getFlag sr .c then 1 else 0

/-- `SetZN(v)` on the low byte of a result (R12). -/
def setZN (v : Byte) (sr : Byte) : Byte :=
  setFlag .n (v.getLsbD 7) (setFlag .z (v == 0) sr)

/-- `temp` of ADC and SBC: `zext_16(A) + zext_16(w) + zext_16(SR.C)`, the addend `w` being M for ADC and M ^ 0xFF for SBC
(R161, R162). -/
def sumWord (a w : Byte) (sr : Byte) : Addr := zext a + zext w + carryWord sr

/-- SR after ADC or SBC with sum `t`: C, Z, V, N (R161, R162). -/
def sumStatus (a w : Byte) (t : Addr) (sr : Byte) : Byte :=
  setFlag .n (t.getLsbD 7)
    (setFlag .v ((~~~(a ^^^ w) &&& (a ^^^ loByte t)).getLsbD 7)
      (setFlag .z (loByte t == 0)
        (setFlag .c (t.getLsbD 8) sr)))

/-- SR after BIT: Z from A & M, N and V from M (R166). -/
def bitStatus (a m : Byte) (sr : Byte) : Byte :=
  setFlag .v (m.getLsbD 6) (setFlag .n (m.getLsbD 7) (setFlag .z (a &&& m == 0) sr))

/-- SR after a compare of register value `r` with M, `t` being their difference: C, Z, N (R167 to R169). -/
def compareStatus (r m : Byte) (t : Addr) (sr : Byte) : Byte :=
  setFlag .n (t.getLsbD 7) (setFlag .z (loByte t == 0) (setFlag .c (decide (m ≤ r)) sr))

/-- SR after a shift or rotate with result word `t` and bit `out` shifted out: C, Z, N (R181 to R184). -/
def shiftStatus (out : Bool) (t : Addr) (sr : Byte) : Byte :=
  setFlag .n (t.getLsbD 7) (setFlag .z (loByte t == 0) (setFlag .c out sr))

/-- The copy PHP pushes: B = 1, U = 1 (R221). -/
def phpCopy (sr : Byte) : Byte := sr ||| 0x10 ||| 0x20

/-- SR after PLP pulls `v`: only U is forced (R223, D11). -/
def plpStatus (v : Byte) : Byte := v ||| 0x20

/-- SR after RTI pulls `v`: B cleared, U forced (R229, D8). -/
def rtiStatus (v : Byte) : Byte := (v &&& ~~~0x10) ||| 0x20

/-- The copy `irq()` and `nmi()` push: B = 0, U = 1, the rest as before entry (R303). -/
def interruptCopy (sr : Byte) : Byte := (sr &&& ~~~0x10) ||| 0x20

/-- SR after an `irq()` or `nmi()` entry: I = 1, B = 0, U = 1 (R306, D9). -/
def interruptStatus (sr : Byte) : Byte :=
  setFlag .u true (setFlag .b false (setFlag .i true sr))

/-- The copy BRK pushes: I is set before the push and B is 1; U is as live (R228, D10). -/
def brkCopy (sr : Byte) : Byte := setFlag .b true (setFlag .i true sr)

/-- SR after BRK: I = 1, B cleared again (R228). -/
def brkStatus (sr : Byte) : Byte := setFlag .b false (brkCopy sr)

end Sys2Proof.Machine
end

