-- ==== Sys2Proof/Config.lean ====
section
/-! DEFINITION. The launch's named parameters (00_scope.md R8). `MEM0` is the contents of `State.mem` at construction and
`BUS` has the single value plain RAM (R62), so the one field is `ILLEGAL_OPCODE_POLICY`. The spec leaves no value free
(R9), so there is no free value here. -/

namespace Sys2Proof

/-- `ILLEGAL_OPCODE_POLICY` (R8, R272): what dispatching one of the 105 illegal slots does. -/
inductive IllegalOpcodePolicy where
  | nop
  | refuse
  deriving DecidableEq, Repr

/-- The parameters a launch fixes for a whole run (R8). -/
structure Config where
  illegalOpcodePolicy : IllegalOpcodePolicy
  deriving DecidableEq, Repr

/-- The default launch: `ILLEGAL_OPCODE_POLICY = nop` (R8). -/
def Config.default : Config := { illegalOpcodePolicy := .nop }

end Sys2Proof
end

