-- ==== Sys2Proof/Machine/State.lean ====
section
/-! DEFINITION. The machine's state as plain data (10_state.md R20 to R39, 20_memory.md R60 to R63), the driver's calls,
the faults and refusals (60_exceptions.md R300), and the state at construction (R43) and after reset (R44). -/

namespace Sys2Proof.Machine

/-- The memory behind the bus (R60, R62): cells in rising order of address, none equal to what an unlisted address reads
as (`Memory.wf`, Ops.lean; log 2). -/
abbrev Memory := List Host.Cell

/-- The two interrupt requests the driver can make (R302). -/
inductive InterruptCall where
  | irq
  | nmi
  deriving DecidableEq, Repr

/-- The calls through which the driver acts on the core (R4, R15). -/
inductive DriverCall where
  | clock
  | reset
  | interrupt (call : InterruptCall)
  deriving DecidableEq, Repr

/-- Why the machine stops with a fault. -/
inductive Fault where
  /-- Raised by `irq()` or `nmi()` called while `cycles != 0` (R300, R309, D16). The spec's own model fault: safe. -/
  | interruptMidInstruction (call : InterruptCall)
  deriving DecidableEq, Repr

/-- Why an instruction gets no meaning. -/
inductive Refusal where
  /-- An instruction that has no meaning yet; no arm of `exec` raises it. Safe. -/
  | notModelled (mnemonic : String)
  /-- Raised by an illegal slot under `ILLEGAL_OPCODE_POLICY = refuse`, with the opcode and its address (R272, R300,
  D25). The spec's own refusal: safe. -/
  | illegalOpcode (opcode : Byte) (address : Addr)
  deriving DecidableEq, Repr

/-- Everything the spec gives the machine. -/
structure State where
  /-- A, the accumulator (R21). -/
  a : Byte
  /-- X, an index register (R22). -/
  x : Byte
  /-- Y, an index register (R22). -/
  y : Byte
  /-- PC (R23, R24). -/
  pc : Addr
  /-- SP, an offset into page 0x01 (R25). -/
  sp : Byte
  /-- SR, the packed flags N V U B D I Z C (R26, R27). -/
  sr : Byte
  /-- `fetched`, the operand byte (R33). -/
  fetched : Byte
  /-- `temp`, the scratch for wide arithmetic (R34). -/
  temp : Addr
  /-- `addr_abs`, the resolved absolute address (R35). -/
  addrAbs : Addr
  /-- `addr_rel`, the sign-extended branch displacement (R36). -/
  addrRel : Addr
  /-- `opcode`, the current instruction byte (R37). -/
  opcode : Byte
  /-- `cycles`, the `clock()` calls left to the current instruction (R38, D23). -/
  cycles : Byte
  /-- The 65,536 bytes behind the bus (R60). -/
  mem : Memory
  /-- The launch's parameters (R8); no step changes them (log 5). -/
  cfg : Config
  /-- The calls the driver makes next, oldest first; the model's own field (log 1). -/
  driver : List DriverCall
  deriving DecidableEq, Repr

/-- The state at construction (R43): every register and latch 0, `cycles` 0, memory `MEM0`, SR = 0x00
(90_conflicts.md C4). -/
def State.construct (mem0 : Memory) (cfg : Config) : State :=
  { a := 0, x := 0, y := 0, pc := 0, sp := 0, sr := 0
    fetched := 0, temp := 0, addrAbs := 0, addrRel := 0, opcode := 0, cycles := 0
    mem := mem0, cfg := cfg, driver := [] }

/-- The machine right after reset (R44, R340): `reset()` on the construction state with nothing listed in memory
(log 2, log 4). PC is the word the blank memory holds at 0xFFFC/0xFFFD. -/
def State.reset : State :=
  { State.construct [] Config.default with sp := 0xFD, sr := 0x20, cycles := 8 }

end Sys2Proof.Machine
end

