-- ==== Sys2Proof/Machine/Ops.lean ====
section
/-! DEFINITION. The named operations over memory and registers: the bus (20_memory.md R61, R62), one setter per field, the
stack (R70), the vectors (R71), taking an interrupt and returning from one (46_stack_subroutine.md R228, R229;
60_exceptions.md R303 to R306), and `reset()` (70_reset_and_hazards.md R340). -/

namespace Sys2Proof.Machine

/-! ## Memory -/

/-- What an address that no cell lists reads as: 0x00 (DESIGN CHOICE, log 2). -/
def Memory.unlisted : Byte := 0

/-- The byte at a key. -/
def Memory.byteAt : Memory → Nat → Byte
  | [], _ => Memory.unlisted
  | (k, v) :: rest, a => if k = a then v else Memory.byteAt rest a

/-- The cell `(a, v)` in front of `rest`, left out where it would say what an unlisted address says. -/
def Memory.cell (a : Nat) (v : Byte) (rest : Memory) : Memory :=
  if v = Memory.unlisted then rest else (a, v) :: rest

/-- Put `v` at key `a`, keeping the canonical form. -/
def Memory.put : Memory → Nat → Byte → Memory
  | [], a, v => Memory.cell a v []
  | (k, w) :: rest, a, v =>
    if a < k then Memory.cell a v ((k, w) :: rest)
    else if a = k then Memory.cell a v rest
    else (k, w) :: Memory.put rest a v

/-- `read(addr)` (R61): the byte at a 16-bit address; it never fails. -/
def Memory.read (m : Memory) (a : Addr) : Byte := m.byteAt a.toNat

/-- `write(addr, value)` (R61): only the addressed byte changes (R62). -/
def Memory.write (m : Memory) (a : Addr) (v : Byte) : Memory := m.put a.toNat v

/-- Canonical from key `lo` up: keys strictly rising and inside the address space, no cell that an unlisted address
already says. -/
def Memory.wfFrom : Nat → Memory → Bool
  | _, [] => true
  | lo, (k, v) :: rest =>
    decide (lo ≤ k) && decide (k < 65536) && decide (v ≠ Memory.unlisted) && Memory.wfFrom (k + 1) rest

/-- The canonical form, so that equal memories are equal lists. -/
def Memory.wf (m : Memory) : Bool := Memory.wfFrom 0 m

/-! ## One setter per field the machine writes -/

def State.setA (v : Byte) (s : State) : State := { s with a := v }
def State.setX (v : Byte) (s : State) : State := { s with x := v }
def State.setY (v : Byte) (s : State) : State := { s with y := v }
def State.setPc (v : Addr) (s : State) : State := { s with pc := v }
def State.setSp (v : Byte) (s : State) : State := { s with sp := v }
def State.setSr (v : Byte) (s : State) : State := { s with sr := v }
def State.setFetched (v : Byte) (s : State) : State := { s with fetched := v }
def State.setTemp (v : Addr) (s : State) : State := { s with temp := v }
def State.setAddrAbs (v : Addr) (s : State) : State := { s with addrAbs := v }
def State.setAddrRel (v : Addr) (s : State) : State := { s with addrRel := v }
def State.setOpcode (v : Byte) (s : State) : State := { s with opcode := v }
def State.setCycles (v : Byte) (s : State) : State := { s with cycles := v }
def State.setMem (v : Memory) (s : State) : State := { s with mem := v }
def State.setDriver (v : List DriverCall) (s : State) : State := { s with driver := v }

/-- `MemRead(addr, 1)` (R12). -/
def State.load (s : State) (a : Addr) : Byte := s.mem.read a

/-- `MemWrite(addr, 1, v)` (R12). -/
def State.store (a : Addr) (v : Byte) (s : State) : State := s.setMem (s.mem.write a v)

/-- A flag of the live SR. -/
def State.flag (s : State) (f : Flag) : Bool := getFlag s.sr f

/-- `ReadVector(a)` (R12): low byte at `a`, high byte at `a + 1`. -/
def State.readVector (s : State) (a : Addr) : Addr := concat (s.load (a + 1)) (s.load a)

/-- `complete()` (R129). -/
def State.complete (s : State) : Bool := s.cycles == 0

/-- The driver's inspection read (R64): it changes nothing. -/
def State.peek (s : State) (a : Addr) : Byte := s.load a

/-! ## The stack (R70) -/

/-- The address of the stack byte that SP designates (R25). -/
def stackAddr (sp : Byte) : Addr := 0x0100 + zext sp

/-- `Push(v)`. -/
def push (v : Byte) (s : State) : State := (s.store (stackAddr s.sp) v).setSp (s.sp - 1)

/-- Push a word, high byte first (R65). -/
def pushWord (w : Addr) (s : State) : State := push (loByte w) (push (hiByte w) s)

/-- The byte `Pull()` returns. -/
def pulled (s : State) : Byte := s.load (stackAddr (s.sp + 1))

/-- What `Pull()` does to SP. -/
def pop (s : State) : State := s.setSp (s.sp + 1)

/-- The word that pulling low byte then high byte returns. -/
def pulledWord (s : State) : Addr := concat (pulled (pop s)) (pulled s)

/-! ## Taking an interrupt, and returning from one -/

/-- The IRQ and BRK vector (R71). -/
def irqVector : Addr := 0xFFFE

/-- The NMI vector (R71). -/
def nmiVector : Addr := 0xFFFA

/-- The RESET vector (R71). -/
def resetVector : Addr := 0xFFFC

/-- The one interrupt entry: push the return address high byte first, push the status copy, set SR to `live`, load PC
from the vector (R228, R303 to R306). -/
def enterInterrupt (ret : Addr) (copy live : Byte) (vector : Addr) (s : State) : State :=
  let p := (push copy (pushWord ret s)).setSr live
  p.setPc (p.readVector vector)

/-- The entry of BRK; PC is the opcode address + 1 and skips the signature byte (R228, D2). -/
def breakEntry (s : State) : State :=
  enterInterrupt (s.pc + 1) (brkCopy s.sr) (brkStatus s.sr) irqVector s

/-- The entry of `irq()` (when taken) and `nmi()`: 7 cycles (R303 to R307). -/
def interruptEntry (vector : Addr) (s : State) : State :=
  (enterInterrupt s.pc (interruptCopy s.sr) (interruptStatus s.sr) vector s).setCycles 7

/-- The return: pull SR with B cleared and U forced, then PC low, then PC high, with no + 1 (R229). -/
def returnFromInterrupt (s : State) : State :=
  let p := (pop s).setSr (rtiStatus (pulled s))
  (pop (pop p)).setPc (pulledWord p)

/-- `irq()` and `nmi()` (R304, R305, R309): a fault unless `complete()`; an IRQ with I = 1 is lost (D29). -/
def interruptCall (call : InterruptCall) (s : State) : Host.Outcome State Fault Refusal :=
  if s.complete then
    match call with
    | .irq => if s.flag .i then .next s else .next (interruptEntry irqVector s)
    | .nmi => .next (interruptEntry nmiVector s)
  else .fault (.interruptMidInstruction call)

/-- `reset()` (R340, R342): never a fault; `temp`, `opcode` and memory are kept. -/
def resetCall (s : State) : State :=
  { s with
    a := 0, x := 0, y := 0, sp := 0xFD, sr := 0x20
    pc := s.readVector resetVector
    addrAbs := 0, addrRel := 0, fetched := 0, cycles := 8 }

end Sys2Proof.Machine
end

