-- ==== Sys2Proof/Machine/Operands.lean ====
section
/-! DEFINITION. The twelve addressing-mode resolvers (41_addressing_modes.md R140 to R151), the `fetch()` helper
(40_fetch_sequencer.md R125), the write-back of the shifts (43_shift_rotate.md R180), and the frame every instruction
shares: resolve, operate, add the extra cycle (R123). -/

namespace Sys2Proof.Machine

/-- The `addr_abs` a resolver computes (R141 to R151). Implied and Relative leave it as it was (R140, R145). -/
def effectiveAddress (m : Operand) (s : State) : Addr :=
  match m with
  | .imp => s.addrAbs
  | .rel _ => s.addrAbs
  | .imm _ => s.pc
  | .zp0 aa => zext aa
  | .zpx aa => (zext aa + zext s.x) &&& 0x00FF
  | .zpy aa => (zext aa + zext s.y) &&& 0x00FF
  | .abs hhll => hhll
  | .abx hhll => hhll + zext s.x
  | .aby hhll => hhll + zext s.y
  | .ind ptr =>
    concat (if loByte ptr = 0xFF then s.load (ptr &&& 0xFF00) else s.load (ptr + 1)) (s.load ptr)
  | .izx tt => concat (s.load (zext (tt + s.x + 1))) (s.load (zext (tt + s.x)))
  | .izy tt => concat (s.load (zext (tt + 1))) (s.load (zext tt)) + zext s.y

/-- The resolver's extra-cycle signal: indexing changed the high byte (R128, R147, R148, R151). -/
def pageCrossed (m : Operand) (s : State) : Bool :=
  match m with
  | .abx hhll => hiByte (effectiveAddress m s) != hiByte hhll
  | .aby hhll => hiByte (effectiveAddress m s) != hiByte hhll
  | .izy tt => hiByte (effectiveAddress m s) != s.load (zext (tt + 1))
  | .imp | .imm _ | .zp0 _ | .zpx _ | .zpy _ | .rel _ | .abs _ | .ind _ | .izx _ => false

/-- PC moved past the operand bytes (R24). -/
def skipOperand (m : Operand) (s : State) : State :=
  s.setPc (s.pc + BitVec.ofNat 16 m.mode.operandBytes)

/-- The resolver of a mode: what it writes to PC, `addr_abs`, `addr_rel` and `fetched` (R140 to R152). -/
def resolve (m : Operand) (s : State) : State :=
  match m with
  | .imp => s.setFetched s.a
  | .rel dd => skipOperand m (s.setAddrRel (sext dd))
  | .imm _ | .zp0 _ | .zpx _ | .zpy _ | .abs _ | .abx _ | .aby _ | .ind _ | .izx _ | .izy _ =>
    skipOperand m (s.setAddrAbs (effectiveAddress m s))

/-- `fetch()` (R125), after the resolver: the byte at `addr_abs`, or the latched A in Implied mode. The Immediate byte is
the one the decoder read at `addr_abs` (log 6). -/
def fetchOperand (m : Operand) (s : State) : State :=
  match m with
  | .imp => s
  | .imm nn => s.setFetched nn
  | .zp0 _ | .zpx _ | .zpy _ | .rel _ | .abs _ | .abx _ | .aby _ | .ind _ | .izx _ | .izy _ =>
    s.setFetched (s.load s.addrAbs)

/-- `WriteBack(v8)` (R180): to A in Implied mode, else to memory. -/
def writeBack (m : Operand) (v : Byte) (s : State) : State :=
  match m with
  | .imp => s.setA v
  | .imm _ | .zp0 _ | .zpx _ | .zpy _ | .rel _ | .abs _ | .abx _ | .aby _ | .ind _ | .izx _ | .izy _ =>
    s.store s.addrAbs v

/-- Fetch the operand and hand it to an operation (R126). -/
def withOperand (m : Operand) (op : Byte → State → State) (s : State) : State :=
  op (fetchOperand m s).fetched (fetchOperand m s)

/-- `cycles <- cycles + (e1 & e2)` (R123). -/
def addExtraCycle (extra : Bool) (s : State) : State :=
  if extra then s.setCycles (s.cycles + 1) else s

/-- The rest of a dispatch after the opcode fetch and the load of the base count (R123): the resolver with its signal e1,
the operation with its signal `e2` (R127), the extra cycle. -/
def runSlot (m : Operand) (e2 : Bool) (op : State → State) (s : State) : Host.Outcome State Fault Refusal :=
  .next (addExtraCycle (pageCrossed m s && e2) (op (resolve m s)))

end Sys2Proof.Machine
end

