-- ==== Sys2Proof/Machine/Alu.lean ====
section
/-! DEFINITION. Arithmetic, logic and compare (42_arithmetic_logic.md R160 to R169). -/

namespace Sys2Proof.Machine

/-- A <- A + w + C with C, Z, V, N (R161; R162 with the complemented operand). SR.D has no effect (R30, R160). -/
def addCarry (w : Byte) (s : State) : State :=
  let t := sumWord s.a w s.sr
  ((s.setTemp t).setSr (sumStatus s.a w t s.sr)).setA (loByte t)

/-- A <- v with Z and N (R163 to R165, R222, R240, R248, R249). -/
def setAZN (v : Byte) (s : State) : State := (s.setA v).setSr (setZN v s.sr)

/-- X <- v with Z and N (R192, R194, R241, R246, R250). -/
def setXZN (v : Byte) (s : State) : State := (s.setX v).setSr (setZN v s.sr)

/-- Y <- v with Z and N (R193, R195, R242, R247). -/
def setYZN (v : Byte) (s : State) : State := (s.setY v).setSr (setZN v s.sr)

/-- The compare of register value `r` with M (R167 to R169). -/
def compareWith (r m : Byte) (s : State) : State :=
  let t := zext r - zext m
  (s.setTemp t).setSr (compareStatus r m t s.sr)

/-- BIT (R166). -/
def testBits (m : Byte) (s : State) : State :=
  (s.setTemp (zext (s.a &&& m))).setSr (bitStatus s.a m s.sr)

/-- ADC (R161). -/
def execAdc (m : Operand) (s : State) : Host.Outcome State Fault Refusal :=
  runSlot m true (withOperand m addCarry) s

/-- SBC: ADC of the complemented operand (R162). -/
def execSbc (m : Operand) (s : State) : Host.Outcome State Fault Refusal :=
  runSlot m true (withOperand m fun v => addCarry (v ^^^ 0xFF)) s

/-- AND (R163). -/
def execAnd (m : Operand) (s : State) : Host.Outcome State Fault Refusal :=
  runSlot m true (withOperand m fun v t => setAZN (t.a &&& v) t) s

/-- ORA (R164). -/
def execOra (m : Operand) (s : State) : Host.Outcome State Fault Refusal :=
  runSlot m true (withOperand m fun v t => setAZN (t.a ||| v) t) s

/-- EOR (R165). -/
def execEor (m : Operand) (s : State) : Host.Outcome State Fault Refusal :=
  runSlot m true (withOperand m fun v t => setAZN (t.a ^^^ v) t) s

/-- BIT (R166); it returns 0 (R127). -/
def execBit (m : Operand) (s : State) : Host.Outcome State Fault Refusal :=
  runSlot m false (withOperand m testBits) s

/-- CMP (R167). -/
def execCmp (m : Operand) (s : State) : Host.Outcome State Fault Refusal :=
  runSlot m true (withOperand m fun v t => compareWith t.a v t) s

/-- CPX (R168); it returns 0. -/
def execCpx (m : Operand) (s : State) : Host.Outcome State Fault Refusal :=
  runSlot m false (withOperand m fun v t => compareWith t.x v t) s

/-- CPY (R169); it returns 0. -/
def execCpy (m : Operand) (s : State) : Host.Outcome State Fault Refusal :=
  runSlot m false (withOperand m fun v t => compareWith t.y v t) s

end Sys2Proof.Machine
end

