-- ==== Sys2Proof/Machine/Branch.lean ====
section
/-! DEFINITION. Branches and jumps (45_branch_jump.md R200 to R210). -/

namespace Sys2Proof.Machine

/-- `Branch(cond)` (R200), after the Relative resolver: one cycle if taken, one more if the target is in another page
than PC (90_conflicts.md C3); the target goes to `addr_abs` and PC. -/
def branchIf (cond : Bool) (s : State) : State :=
  if cond then
    let target := s.pc + s.addrRel
    let cross := hiByte target != hiByte s.pc
    ((s.setCycles (if cross then s.cycles + 1 + 1 else s.cycles + 1)).setAddrAbs target).setPc target
  else s

/-- A branch on flag `f` having the value `on`. -/
def branchOn (f : Flag) (on : Bool) (dd : Byte) (s : State) : Host.Outcome State Fault Refusal :=
  runSlot (.rel dd) false (fun t => branchIf (t.flag f == on) t) s

/-- BCC (R201). -/
def execBcc (dd : Byte) (s : State) : Host.Outcome State Fault Refusal := branchOn .c false dd s

/-- BCS (R202). -/
def execBcs (dd : Byte) (s : State) : Host.Outcome State Fault Refusal := branchOn .c true dd s

/-- BEQ (R203). -/
def execBeq (dd : Byte) (s : State) : Host.Outcome State Fault Refusal := branchOn .z true dd s

/-- BMI (R204). -/
def execBmi (dd : Byte) (s : State) : Host.Outcome State Fault Refusal := branchOn .n true dd s

/-- BNE (R205). -/
def execBne (dd : Byte) (s : State) : Host.Outcome State Fault Refusal := branchOn .z false dd s

/-- BPL (R206). -/
def execBpl (dd : Byte) (s : State) : Host.Outcome State Fault Refusal := branchOn .n false dd s

/-- BVC (R207). -/
def execBvc (dd : Byte) (s : State) : Host.Outcome State Fault Refusal := branchOn .v false dd s

/-- BVS (R208). -/
def execBvs (dd : Byte) (s : State) : Host.Outcome State Fault Refusal := branchOn .v true dd s

/-- JMP (R210): PC <- `addr_abs`; the Indirect form has the page bug of R149. -/
def execJmp (m : Operand) (s : State) : Host.Outcome State Fault Refusal :=
  runSlot m false (fun t => t.setPc t.addrAbs) s

end Sys2Proof.Machine
end

