-- ==== Sys2Proof/Machine/IncDec.lean ====
section
/-! DEFINITION. Increment and decrement (44_increment_decrement.md R190 to R195): Z and N only. -/

namespace Sys2Proof.Machine

/-- Store the low byte of `t` back to `addr_abs` with Z and N (R190, R191). -/
def storeZN (t : Addr) (s : State) : State :=
  ((s.setTemp t).store s.addrAbs (loByte t)).setSr (setZN (loByte t) s.sr)

/-- INC (R190): one read and one write of the target. -/
def execInc (m : Operand) (s : State) : Host.Outcome State Fault Refusal :=
  runSlot m false (withOperand m fun v => storeZN (zext v + 1)) s

/-- DEC (R191). -/
def execDec (m : Operand) (s : State) : Host.Outcome State Fault Refusal :=
  runSlot m false (withOperand m fun v => storeZN (zext v - 1)) s

/-- INX (R192). -/
def execInx (s : State) : Host.Outcome State Fault Refusal :=
  runSlot .imp false (fun t => setXZN (t.x + 1) t) s

/-- INY (R193). -/
def execIny (s : State) : Host.Outcome State Fault Refusal :=
  runSlot .imp false (fun t => setYZN (t.y + 1) t) s

/-- DEX (R194). -/
def execDex (s : State) : Host.Outcome State Fault Refusal :=
  runSlot .imp false (fun t => setXZN (t.x - 1) t) s

/-- DEY (R195). -/
def execDey (s : State) : Host.Outcome State Fault Refusal :=
  runSlot .imp false (fun t => setYZN (t.y - 1) t) s

end Sys2Proof.Machine
end

