-- ==== Sys2Proof/Machine/Shift.lean ====
section
/-! DEFINITION. Shift and rotate (43_shift_rotate.md R180 to R184). -/

namespace Sys2Proof.Machine

/-- The end all four share: `temp`, C from the bit shifted out, Z and N from the low byte, write-back. -/
def shiftTo (m : Operand) (out : Bool) (t : Addr) (s : State) : State :=
  writeBack m (loByte t) ((s.setTemp t).setSr (shiftStatus out t s.sr))

/-- ASL (R181): old bit 7 goes to C, 0 enters bit 0. -/
def execAsl (m : Operand) (s : State) : Host.Outcome State Fault Refusal :=
  runSlot m false (withOperand m fun v t => shiftTo m (v.getLsbD 7) (zext v <<< 1) t) s

/-- LSR (R182): bit 0 goes to C, 0 enters bit 7. -/
def execLsr (m : Operand) (s : State) : Host.Outcome State Fault Refusal :=
  runSlot m false (withOperand m fun v t => shiftTo m (v.getLsbD 0) (zext v >>> 1) t) s

/-- ROL (R183): old C enters bit 0, old bit 7 goes to C. -/
def execRol (m : Operand) (s : State) : Host.Outcome State Fault Refusal :=
  runSlot m false (withOperand m fun v t => shiftTo m (v.getLsbD 7) ((zext v <<< 1) ||| carryWord t.sr) t) s

/-- ROR (R184): old C enters bit 7, bit 0 goes to C. -/
def execRor (m : Operand) (s : State) : Host.Outcome State Fault Refusal :=
  runSlot m false (withOperand m fun v t => shiftTo m (v.getLsbD 0) ((carryWord t.sr <<< 7) ||| (zext v >>> 1)) t) s

end Sys2Proof.Machine
end

