-- ==== Sys2Proof/Machine/Stack.lean ====
section
/-! DEFINITION. Stack, subroutine, BRK and RTI (46_stack_subroutine.md R220 to R229). -/

namespace Sys2Proof.Machine

/-- PHA (R220). -/
def execPha (s : State) : Host.Outcome State Fault Refusal :=
  runSlot .imp false (fun t => push t.a t) s

/-- PHP (R221): the copy has B and U set, the live SR is unchanged. -/
def execPhp (s : State) : Host.Outcome State Fault Refusal :=
  runSlot .imp false (fun t => push (phpCopy t.sr) t) s

/-- PLA (R222). -/
def execPla (s : State) : Host.Outcome State Fault Refusal :=
  runSlot .imp false (fun t => setAZN (pulled t) (pop t)) s

/-- PLP (R223). -/
def execPlp (s : State) : Host.Outcome State Fault Refusal :=
  runSlot .imp false (fun t => (pop t).setSr (plpStatus (pulled t))) s

/-- JSR (R225): push the address of its last byte, jump to the target. -/
def execJsr (target : Addr) (s : State) : Host.Outcome State Fault Refusal :=
  runSlot (.abs target) false (fun t => (pushWord (t.pc - 1) t).setPc t.addrAbs) s

/-- RTS (R226): pull the word, continue one past it. -/
def execRts (s : State) : Host.Outcome State Fault Refusal :=
  runSlot .imp false (fun t => (pop (pop t)).setPc (pulledWord t + 1)) s

/-- BRK (R228): the software interrupt. -/
def execBrk (s : State) : Host.Outcome State Fault Refusal := runSlot .imp false breakEntry s

/-- RTI (R229): the return from interrupt. -/
def execRti (s : State) : Host.Outcome State Fault Refusal := runSlot .imp false returnFromInterrupt s

end Sys2Proof.Machine
end

