-- ==== Sys2Proof/Machine/System.lean ====
section
/-! DEFINITION. Flag instructions, NOP and the illegal slots (48_flags_nop_illegal.md R260 to R272). -/

namespace Sys2Proof.Machine

/-- Write one flag of SR and nothing else (R260 to R266). -/
def flagTo (f : Flag) (on : Bool) (s : State) : Host.Outcome State Fault Refusal :=
  runSlot .imp false (fun t => t.setSr (setFlag f on t.sr)) s

/-- CLC (R260). -/
def execClc (s : State) : Host.Outcome State Fault Refusal := flagTo .c false s

/-- CLD (R261). -/
def execCld (s : State) : Host.Outcome State Fault Refusal := flagTo .d false s

/-- CLI (R262). -/
def execCli (s : State) : Host.Outcome State Fault Refusal := flagTo .i false s

/-- CLV (R263). -/
def execClv (s : State) : Host.Outcome State Fault Refusal := flagTo .v false s

/-- SEC (R264). -/
def execSec (s : State) : Host.Outcome State Fault Refusal := flagTo .c true s

/-- SED (R265). -/
def execSed (s : State) : Host.Outcome State Fault Refusal := flagTo .d true s

/-- SEI (R266). -/
def execSei (s : State) : Host.Outcome State Fault Refusal := flagTo .i true s

/-- The six opcodes for which the NOP handler returns 1 (R268). -/
def nopExtraOpcodes : List Byte := [0x1C, 0x3C, 0x5C, 0x7C, 0xDC, 0xFC]

/-- The NOP handler (R268): no effect; it returns 1 for the six opcodes. Its slots are Implied, so the 1 adds no cycle. -/
def nopHandler (s : State) : Host.Outcome State Fault Refusal :=
  runSlot .imp (nopExtraOpcodes.contains s.opcode) id s

/-- NOP, slot 0xEA (R267). -/
def execNop (s : State) : Host.Outcome State Fault Refusal := nopHandler s

/-- An illegal slot: refused with its opcode and address under the policy `refuse`, else its handler (R103, R272). The
opcode byte has been read, so its address is PC - 1 (D25). -/
def illegalSlot (slot : Byte) (handler : State → Host.Outcome State Fault Refusal) (s : State) :
    Host.Outcome State Fault Refusal :=
  match s.cfg.illegalOpcodePolicy with
  | .refuse => .refused (.illegalOpcode slot (s.pc - 1))
  | .nop => handler s

/-- A `nop*` slot (R269): the NOP handler. -/
def execNopStar (slot : Byte) (s : State) : Host.Outcome State Fault Refusal := illegalSlot slot nopHandler s

/-- An `ill` slot (R270): the illegal handler `XXX`, which performs no effect and returns 0. -/
def execIll (slot : Byte) (s : State) : Host.Outcome State Fault Refusal :=
  illegalSlot slot (runSlot .imp false id) s

end Sys2Proof.Machine
end

