-- ==== Sys2Proof/Machine/Transfer.lean ====
section
/-! DEFINITION. Loads, stores and register transfers (47_load_store_transfer.md R240 to R251). -/

namespace Sys2Proof.Machine

/-- LDA (R240). -/
def execLda (m : Operand) (s : State) : Host.Outcome State Fault Refusal :=
  runSlot m true (withOperand m setAZN) s

/-- LDX (R241). -/
def execLdx (m : Operand) (s : State) : Host.Outcome State Fault Refusal :=
  runSlot m true (withOperand m setXZN) s

/-- LDY (R242). -/
def execLdy (m : Operand) (s : State) : Host.Outcome State Fault Refusal :=
  runSlot m true (withOperand m setYZN) s

/-- STA (R243): no read of the target. -/
def execSta (m : Operand) (s : State) : Host.Outcome State Fault Refusal :=
  runSlot m false (fun t => t.store t.addrAbs t.a) s

/-- STX (R244). -/
def execStx (m : Operand) (s : State) : Host.Outcome State Fault Refusal :=
  runSlot m false (fun t => t.store t.addrAbs t.x) s

/-- STY (R245). -/
def execSty (m : Operand) (s : State) : Host.Outcome State Fault Refusal :=
  runSlot m false (fun t => t.store t.addrAbs t.y) s

/-- TAX (R246). -/
def execTax (s : State) : Host.Outcome State Fault Refusal := runSlot .imp false (fun t => setXZN t.a t) s

/-- TAY (R247). -/
def execTay (s : State) : Host.Outcome State Fault Refusal := runSlot .imp false (fun t => setYZN t.a t) s

/-- TXA (R248). -/
def execTxa (s : State) : Host.Outcome State Fault Refusal := runSlot .imp false (fun t => setAZN t.x t) s

/-- TYA (R249). -/
def execTya (s : State) : Host.Outcome State Fault Refusal := runSlot .imp false (fun t => setAZN t.y t) s

/-- TSX (R250). -/
def execTsx (s : State) : Host.Outcome State Fault Refusal := runSlot .imp false (fun t => setXZN t.sp t) s

/-- TXS (R251): no flags. -/
def execTxs (s : State) : Host.Outcome State Fault Refusal := runSlot .imp false (fun t => t.setSp t.x) s

end Sys2Proof.Machine
end

