-- ==== Sys2Proof/Machine/Clock.lean ====
section
/-! DEFINITION. The control sequencer (40_fetch_sequencer.md R120 to R131): opcode fetch, dispatch, `clock()`, the driver's
calls, running one whole instruction, and placing bytes where the next fetch reads them. -/

namespace Sys2Proof.Machine

/-- Opcode fetch (R122): the byte at PC into `opcode`, PC + 1. -/
def fetchOpcode (s : State) : State := (s.setOpcode (s.load s.pc)).setPc (s.pc + 1)

/-- The instruction whose opcode is at PC (R90): operand bytes at the addresses after it, mod 65,536. -/
def instrAt (s : State) : Instr := decodeAt (s.load s.pc) (s.load (s.pc + 1)) (s.load (s.pc + 2))

/-- The state `exec` starts from: opcode fetched, base cycle count loaded (R122, R123). -/
def afterFetch (s : State) : State := (fetchOpcode s).setCycles (descriptor (s.load s.pc)).base

/-- `Dispatch()` (R123). -/
def dispatch (s : State) : Host.Outcome State Fault Refusal := exec (instrAt s) (afterFetch s)

/-- `cycles <- cycles - 1`, the end of every `clock()` call (R120). -/
def countDown (s : State) : State := s.setCycles (s.cycles - 1)

/-- `clock()` (R120, R121): dispatch if `cycles` is 0, then count down. -/
def clock (s : State) : Host.Outcome State Fault Refusal :=
  if s.complete then
    match dispatch s with
    | .next t => .next (countDown t)
    | .fault r => .fault r
    | .refused r => .refused r
  else .next (countDown s)

/-- One call by the driver (R4, R15). -/
def drive (call : DriverCall) (s : State) : Host.Outcome State Fault Refusal :=
  match call with
  | .clock => clock s
  | .reset => .next (resetCall s)
  | .interrupt k => interruptCall k s

/-- One step: the driver's next call, which is `clock()` once the script is used up (log 1). -/
def nextCall (s : State) : Host.Outcome State Fault Refusal :=
  match s.driver with
  | [] => drive .clock s
  | call :: rest => drive call (s.setDriver rest)

/-- `n` calls of `clock()`, the script aside. -/
def clocks : Nat → State → Host.Outcome State Fault Refusal
  | 0, s => .next s
  | n + 1, s =>
    match clock s with
    | .next t => clocks n t
    | .fault r => .fault r
    | .refused r => .refused r

/-- One whole instruction from a state with `complete()` true (R131): `clock()` until `complete()` is true again, which is
as many further calls as the first one leaves in `cycles` (R124; log 12). -/
def completeInstruction (s : State) : Host.Outcome State Fault Refusal :=
  match clock s with
  | .next t => clocks t.cycles.toNat t
  | .fault r => .fault r
  | .refused r => .refused r

/-- The bytes stored at consecutive addresses from `a`, mod 65,536 (R90). -/
def placeBytes : List Byte → Addr → State → State
  | [], _, s => s
  | b :: rest, a, s => placeBytes rest (a + 1) (s.store a b)

end Sys2Proof.Machine
end

