-- ==== Sys2Proof/Machine/Step.lean ====
section
/-! DEFINITION. One step of the machine, and the host's placing of an instruction word before it. -/

namespace Sys2Proof.Machine

/-- One step: the driver's next call, `clock()` unless its script says otherwise (R120, R302; log 1). -/
def step (s : State) : Host.Outcome State Fault Refusal := nextCall s

/-- `s` with the instruction of a table word at PC, ready to be dispatched by the very next step: no cycles left to the
call before it, and no other call scripted (log 3). -/
def State.withFetchWord (s : State) (nbits w : Nat) : State :=
  ((placeBytes (tableBytes nbits w) s.pc s).setCycles 0).setDriver []

end Sys2Proof.Machine
end

