-- ==== Sys2Proof/Safety.lean ====
section
/-! DEFINITION. The terms claims are stated in: what an instruction reads, may write and costs, from the spec's summary
rules; the invariant of a run; which states differ only in the latches; which calls stop the machine. -/

namespace Sys2Proof.Machine

/-! ## What an instruction reads and costs -/

/-- The value `fetch()` returns once the mode's resolver has run in `s` (40_fetch_sequencer.md R125, R140). -/
def operandValue (m : Operand) (s : State) : Byte :=
  match m with
  | .imp => s.a
  | .imm nn => nn
  | .zp0 _ | .zpx _ | .zpy _ | .rel _ | .abs _ | .abx _ | .aby _ | .ind _ | .izx _ | .izy _ =>
    s.load (effectiveAddress m s)

/-- `s` with the operand resolved: PC past the operand bytes, `addr_abs` at the resolved address (R153). -/
def resolvedState (m : Operand) (s : State) : State :=
  { s with pc := s.pc + BitVec.ofNat 16 m.mode.operandBytes, addrAbs := effectiveAddress m s }

/-- `s` with the operand resolved and in `fetched` (R125; for Implied, R140). -/
def fetchedState (m : Operand) (s : State) : State :=
  { resolvedState m s with fetched := operandValue m s }

/-- Indexing carries into the high byte, said in numbers (R15 "Page crossing"; R128). -/
def crossesPage (m : Operand) (s : State) : Bool :=
  match m with
  | .abx hhll => decide (256 ≤ hhll.toNat % 256 + s.x.toNat)
  | .aby hhll => decide (256 ≤ hhll.toNat % 256 + s.y.toNat)
  | .izy tt => decide (256 ≤ (s.load (zext tt)).toNat + s.y.toNat)
  | .imp | .imm _ | .zp0 _ | .zpx _ | .zpy _ | .rel _ | .abs _ | .ind _ | .izx _ => false

/-- The page-crossing cycle of an instruction whose handler returns 1 (R128). -/
def pageCycle (m : Operand) (s : State) : Byte := if crossesPage m s then 1 else 0

/-- The mnemonics whose handler returns 1 on a mode that can cross a page (R127, R351). -/
def paysPageCycle : Mnemonic → Bool
  | .adc | .sbc | .and | .ora | .eor | .cmp | .lda | .ldx | .ldy => true
  | .bit | .cpx | .cpy | .asl | .lsr | .rol | .ror | .inc | .dec | .inx | .iny | .dex | .dey => false
  | .bcc | .bcs | .beq | .bmi | .bne | .bpl | .bvc | .bvs | .jmp => false
  | .pha | .php | .pla | .plp | .jsr | .rts | .brk | .rti => false
  | .sta | .stx | .sty | .tax | .tay | .txa | .tya | .tsx | .txs => false
  | .clc | .cld | .cli | .clv | .sec | .sed | .sei | .nop | .nopStar | .ill => false

/-- The slots of a mnemonic with their base cycle counts, as R101 lists the official ones, R104 the `nop*` slots and R105
the `ill` slots. The machine reads its counts from the table of R100. -/
def listedBaseCycles : Mnemonic → List (Byte × Byte)
  | .adc => [(0x61, 6), (0x65, 3), (0x69, 2), (0x6D, 4), (0x71, 5), (0x75, 4), (0x79, 4), (0x7D, 4)]
  | .and => [(0x21, 6), (0x25, 3), (0x29, 2), (0x2D, 4), (0x31, 5), (0x35, 4), (0x39, 4), (0x3D, 4)]
  | .asl => [(0x06, 5), (0x0A, 2), (0x0E, 6), (0x16, 6), (0x1E, 7)]
  | .bcc => [(0x90, 2)]
  | .bcs => [(0xB0, 2)]
  | .beq => [(0xF0, 2)]
  | .bit => [(0x24, 3), (0x2C, 4)]
  | .bmi => [(0x30, 2)]
  | .bne => [(0xD0, 2)]
  | .bpl => [(0x10, 2)]
  | .brk => [(0x00, 7)]
  | .bvc => [(0x50, 2)]
  | .bvs => [(0x70, 2)]
  | .clc => [(0x18, 2)]
  | .cld => [(0xD8, 2)]
  | .cli => [(0x58, 2)]
  | .clv => [(0xB8, 2)]
  | .cmp => [(0xC1, 6), (0xC5, 3), (0xC9, 2), (0xCD, 4), (0xD1, 5), (0xD5, 4), (0xD9, 4), (0xDD, 4)]
  | .cpx => [(0xE0, 2), (0xE4, 3), (0xEC, 4)]
  | .cpy => [(0xC0, 2), (0xC4, 3), (0xCC, 4)]
  | .dec => [(0xC6, 5), (0xCE, 6), (0xD6, 6), (0xDE, 7)]
  | .dex => [(0xCA, 2)]
  | .dey => [(0x88, 2)]
  | .eor => [(0x41, 6), (0x45, 3), (0x49, 2), (0x4D, 4), (0x51, 5), (0x55, 4), (0x59, 4), (0x5D, 4)]
  | .inc => [(0xE6, 5), (0xEE, 6), (0xF6, 6), (0xFE, 7)]
  | .inx => [(0xE8, 2)]
  | .iny => [(0xC8, 2)]
  | .jmp => [(0x4C, 3), (0x6C, 5)]
  | .jsr => [(0x20, 6)]
  | .lda => [(0xA1, 6), (0xA5, 3), (0xA9, 2), (0xAD, 4), (0xB1, 5), (0xB5, 4), (0xB9, 4), (0xBD, 4)]
  | .ldx => [(0xA2, 2), (0xA6, 3), (0xAE, 4), (0xB6, 4), (0xBE, 4)]
  | .ldy => [(0xA0, 2), (0xA4, 3), (0xAC, 4), (0xB4, 4), (0xBC, 4)]
  | .lsr => [(0x46, 5), (0x4A, 2), (0x4E, 6), (0x56, 6), (0x5E, 7)]
  | .nop => [(0xEA, 2)]
  | .ora => [(0x01, 6), (0x05, 3), (0x09, 2), (0x0D, 4), (0x11, 5), (0x15, 4), (0x19, 4), (0x1D, 4)]
  | .pha => [(0x48, 3)]
  | .php => [(0x08, 3)]
  | .pla => [(0x68, 4)]
  | .plp => [(0x28, 4)]
  | .rol => [(0x26, 5), (0x2A, 2), (0x2E, 6), (0x36, 6), (0x3E, 7)]
  | .ror => [(0x66, 5), (0x6A, 2), (0x6E, 6), (0x76, 6), (0x7E, 7)]
  | .rti => [(0x40, 6)]
  | .rts => [(0x60, 6)]
  | .sbc => [(0xE1, 6), (0xE5, 3), (0xE9, 2), (0xED, 4), (0xF1, 5), (0xF5, 4), (0xF9, 4), (0xFD, 4)]
  | .sec => [(0x38, 2)]
  | .sed => [(0xF8, 2)]
  | .sei => [(0x78, 2)]
  | .sta => [(0x81, 6), (0x85, 3), (0x8D, 4), (0x91, 6), (0x95, 4), (0x99, 5), (0x9D, 5)]
  | .stx => [(0x86, 3), (0x8E, 4), (0x96, 4)]
  | .sty => [(0x84, 3), (0x8C, 4), (0x94, 4)]
  | .tax => [(0xAA, 2)]
  | .tay => [(0xA8, 2)]
  | .tsx => [(0xBA, 2)]
  | .txa => [(0x8A, 2)]
  | .txs => [(0x9A, 2)]
  | .tya => [(0x98, 2)]
  | .nopStar =>
    [(0x04, 3), (0x0C, 4), (0x14, 4), (0x1A, 2), (0x1C, 4), (0x34, 4), (0x3A, 2), (0x3C, 4), (0x44, 3)] ++
    [(0x54, 4), (0x5A, 2), (0x5C, 4), (0x64, 3), (0x74, 4), (0x7A, 2), (0x7C, 4), (0x80, 2), (0x82, 2)] ++
    [(0x89, 2), (0x9C, 5), (0xC2, 2), (0xD4, 4), (0xDA, 2), (0xDC, 4), (0xE2, 2), (0xF4, 4), (0xFA, 2)] ++
    [(0xFC, 4)]
  | .ill =>
    [(0x02, 2), (0x03, 8), (0x07, 5), (0x0B, 2), (0x0F, 6), (0x12, 2), (0x13, 8), (0x17, 6), (0x1B, 7)] ++
    [(0x1F, 7), (0x22, 2), (0x23, 8), (0x27, 5), (0x2B, 2), (0x2F, 6), (0x32, 2), (0x33, 8), (0x37, 6)] ++
    [(0x3B, 7), (0x3F, 7), (0x42, 2), (0x43, 8), (0x47, 5), (0x4B, 2), (0x4F, 6), (0x52, 2), (0x53, 8)] ++
    [(0x57, 6), (0x5B, 7), (0x5F, 7), (0x62, 2), (0x63, 8), (0x67, 5), (0x6B, 2), (0x6F, 6), (0x72, 2)] ++
    [(0x73, 8), (0x77, 6), (0x7B, 7), (0x7F, 7), (0x83, 6), (0x87, 3), (0x8B, 2), (0x8F, 4), (0x92, 2)] ++
    [(0x93, 6), (0x97, 4), (0x9B, 5), (0x9E, 5), (0x9F, 5), (0xA3, 6), (0xA7, 3), (0xAB, 2), (0xAF, 4)] ++
    [(0xB2, 2), (0xB3, 5), (0xB7, 4), (0xBB, 4), (0xBF, 4), (0xC3, 8), (0xC7, 5), (0xCB, 2), (0xCF, 6)] ++
    [(0xD2, 2), (0xD3, 8), (0xD7, 6), (0xDB, 7), (0xDF, 7), (0xE3, 8), (0xE7, 5), (0xEB, 2), (0xEF, 6)] ++
    [(0xF2, 2), (0xF3, 8), (0xF7, 6), (0xFB, 7), (0xFF, 7)]

/-- The flag a branch tests and the value it is taken on (R201 to R208). -/
def branchTest : Mnemonic → Option (Flag × Bool)
  | .bcc => some (.c, false)
  | .bcs => some (.c, true)
  | .beq => some (.z, true)
  | .bmi => some (.n, true)
  | .bne => some (.z, false)
  | .bpl => some (.n, false)
  | .bvc => some (.v, false)
  | .bvs => some (.v, true)
  | _ => none

/-- The cycles a branch costs beyond its base from the state after its opcode fetch: none if not taken, 1 in the page of
the following instruction, 2 in another (R200, R209). -/
def branchCycles (dd : Byte) (test : Flag × Bool) (s : State) : Nat :=
  if s.flag test.1 = test.2 then
    if hiByte (s.pc + 1 + sext dd) = hiByte (s.pc + 1) then 1 else 2
  else 0

/-- The `extra` of R351: the cycles beyond the base count. -/
def extraCycles (i : Instr) (s : State) : Nat :=
  match branchTest i.mnemonic with
  | some test => branchCycles i.operand.byte test s
  | none => if paysPageCycle i.mnemonic && crossesPage i.operand s then 1 else 0

/-! ## What an instruction may write -/

/-- The flags a mnemonic writes (10_state.md R31, by flag there, by writer here). -/
def flagsWritten : Mnemonic → List Flag
  | .adc | .sbc => [.c, .z, .v, .n]
  | .cmp | .cpx | .cpy | .asl | .lsr | .rol | .ror => [.c, .z, .n]
  | .bit => [.z, .v, .n]
  | .and | .ora | .eor | .inc | .dec | .inx | .iny | .dex | .dey => [.z, .n]
  | .lda | .ldx | .ldy | .pla | .tax | .tay | .txa | .tya | .tsx => [.z, .n]
  | .plp | .rti => [.c, .z, .i, .d, .b, .u, .v, .n]
  | .brk => [.i, .b]
  | .clc | .sec => [.c]
  | .cli | .sei => [.i]
  | .cld | .sed => [.d]
  | .clv => [.v]
  | .txs | .sta | .stx | .sty | .pha | .php | .jmp | .jsr | .rts => []
  | .bcc | .bcs | .beq | .bmi | .bne | .bpl | .bvc | .bvs | .nop | .nopStar | .ill => []

/-- The 8-bit registers other than SR (R20). -/
inductive Reg where
  | a | x | y | sp
  deriving DecidableEq, Repr

/-- The contents of a register. -/
def State.reg (s : State) : Reg → Byte
  | .a => s.a
  | .x => s.x
  | .y => s.y
  | .sp => s.sp

/-- The registers an instruction writes (R21, R22; SP by the stack instructions of R220 to R229 and TXS, R251). -/
def registersWritten : Instr → List Reg
  | .adc _ | .sbc _ | .and _ | .ora _ | .eor _ | .lda _ | .txa | .tya => [.a]
  | .asl m | .lsr m | .rol m | .ror m => if m.mode = .imp then [.a] else []
  | .pla => [.a, .sp]
  | .ldx _ | .tax | .tsx | .inx | .dex => [.x]
  | .ldy _ | .tay | .iny | .dey => [.y]
  | .pha | .php | .plp | .jsr _ | .rts | .brk | .rti | .txs => [.sp]
  | .bit _ | .cmp _ | .cpx _ | .cpy _ | .inc _ | .dec _ | .jmp _ | .sta _ | .stx _ | .sty _ => []
  | .bcc _ | .bcs _ | .beq _ | .bmi _ | .bne _ | .bpl _ | .bvc _ | .bvs _ => []
  | .clc | .cld | .cli | .clv | .sec | .sed | .sei | .nop | .nopStar _ | .ill _ => []

/-- The addresses an instruction stores to, computed as its meaning computes them (R69, R70, R180). -/
def storesTo (i : Instr) (s : State) : List Addr :=
  match i with
  | .sta m | .stx m | .sty m | .inc m | .dec m => [effectiveAddress m s]
  | .asl m | .lsr m | .rol m | .ror m => if m.mode = .imp then [] else [effectiveAddress m s]
  | .pha | .php => [stackAddr s.sp]
  | .jsr _ => [stackAddr s.sp, stackAddr (s.sp - 1)]
  | .brk => [stackAddr s.sp, stackAddr (s.sp - 1), stackAddr (s.sp - 2)]
  | .adc _ | .sbc _ | .and _ | .ora _ | .eor _ | .bit _ | .cmp _ | .cpx _ | .cpy _ => []
  | .lda _ | .ldx _ | .ldy _ | .jmp _ | .inx | .iny | .dex | .dey => []
  | .bcc _ | .bcs _ | .beq _ | .bmi _ | .bne _ | .bpl _ | .bvc _ | .bvs _ => []
  | .pla | .plp | .rts | .rti | .tax | .tay | .txa | .tya | .tsx | .txs => []
  | .clc | .cld | .cli | .clv | .sec | .sed | .sei | .nop | .nopStar _ | .ill _ => []

/-- The mnemonics that write `temp` (R34). -/
def writesTemp : Mnemonic → Bool
  | .adc | .sbc | .bit | .cmp | .cpx | .cpy | .asl | .lsr | .rol | .ror | .inc | .dec => true
  | _ => false

/-- The mnemonics whose handler calls `fetch()`, which writes `fetched` (R33, R126). -/
def callsFetch : Mnemonic → Bool
  | .adc | .sbc | .and | .ora | .eor | .bit | .cmp | .cpx | .cpy | .asl | .lsr | .rol | .ror => true
  | .inc | .dec | .lda | .ldx | .ldy => true
  | .sta | .stx | .sty | .jmp | .jsr | .bcc | .bcs | .beq | .bmi | .bne | .bpl | .bvc | .bvs => false
  | .inx | .iny | .dex | .dey | .pha | .php | .pla | .plp | .rts | .brk | .rti => false
  | .tax | .tay | .txa | .tya | .tsx | .txs | .clc | .cld | .cli | .clv | .sec | .sed | .sei => false
  | .nop | .nopStar | .ill => false

/-! ## Results -/

/-- Z and N of a result byte (R12 `SetZN`, in numbers). -/
def ZNOf (v sr : Byte) : Prop :=
  (getFlag sr .z = true ↔ v = 0) ∧ (getFlag sr .n = true ↔ 128 ≤ v.toNat)

/-- Every flag but the listed ones is the same in both status bytes. -/
def FlagsKept (written : List Flag) (p q : Byte) : Prop :=
  ∀ f, f ∉ written → getFlag q f = getFlag p f

/-- An instruction rule's "Encodings:" line: for each mode listed, every operand of that mode is encoded as that opcode
byte and its operand bytes. -/
def EncodedAs (mk : Operand → Instr) (listing : List (Mode × Byte)) : Prop :=
  ∀ (m : Operand) (op : Byte), (m.mode, op) ∈ listing → encode (mk m) = op :: m.bytes

/-- An Implied instruction's one-byte encoding and base cycle count. -/
def ImpliedSlot (i : Instr) (op base : Byte) : Prop := encode i = [op] ∧ (descriptor op).base = base

/-- A branch rule (R200 with one of R201 to R208): its encoding and base count 2; taken when flag `f` is `on`, to PC
after the operand plus the displacement, for 1 cycle more in the page of that PC and 2 in another; not taken otherwise,
when only PC passes the operand (and `addr_rel` holds the displacement). -/
def BranchesOn (mk : Byte → Instr) (op : Byte) (f : Flag) (on : Bool) : Prop :=
  (descriptor op).base = 2 ∧
  ∀ (dd : Byte) (s : State),
    encode (mk dd) = [op, dd] ∧
    (s.flag f = on →
      ∃ t, exec (mk dd) s = .next t ∧
        t = { s with addrRel := sext dd, addrAbs := t.pc, pc := t.pc, cycles := t.cycles } ∧
        t.pc = s.pc + 1 + sext dd ∧
        t.cycles = s.cycles + if hiByte t.pc = hiByte (s.pc + 1) then 1 else 2) ∧
    (s.flag f ≠ on → exec (mk dd) s = .next { s with addrRel := sext dd, pc := s.pc + 1 })

/-- A shift or rotate rule (R181 to R184 with R180): from operand value and old carry, the number `result` becomes
`temp`, its low byte is written to A in Implied form and to the operand's address otherwise, and C is `out`. -/
def ShiftsTo (mk : Operand → Instr) (result : Nat → Nat → Nat) (out : Nat → Nat → Bool) : Prop :=
  ∀ (m : Operand) (s : State), (mk m).wellFormed = true → s.mem.wf = true →
    ∃ t, exec (mk m) s = .next t ∧
      let v := (operandValue m s).toNat
      let c := (s.flag .c).toNat
      let r := BitVec.ofNat 8 (result v c)
      t = { fetchedState m s with temp := t.temp, sr := t.sr, a := t.a, mem := t.mem } ∧
      t.temp.toNat = result v c ∧
      t.flag .c = out v c ∧ ZNOf r t.sr ∧ FlagsKept [.c, .z, .n] s.sr t.sr ∧
      (m.mode = .imp → t.a = r ∧ t.mem = s.mem) ∧
      (m.mode ≠ .imp → t.a = s.a ∧ ∀ b, t.load b = if b = effectiveAddress m s then r else s.load b)

/-- A compare rule (R167 to R169, R170) for the register `reg`, paying the page-crossing cycle or not. -/
def ComparesWith (mk : Operand → Instr) (reg : State → Byte) (pays : Bool) : Prop :=
  ∀ (m : Operand) (s : State), (mk m).wellFormed = true →
    ∃ t, exec (mk m) s = .next t ∧
      let v := operandValue m s
      let r := reg s
      t = { fetchedState m s with
            temp := t.temp, sr := t.sr, cycles := s.cycles + if pays then pageCycle m s else 0 } ∧
      t.temp.toNat = (65536 + r.toNat - v.toNat) % 65536 ∧
      (t.flag .c = true ↔ v.toNat ≤ r.toNat) ∧ (t.flag .z = true ↔ r = v) ∧
      (t.flag .n = true ↔ 128 ≤ (256 + r.toNat - v.toNat) % 256) ∧
      FlagsKept [.c, .z, .n] s.sr t.sr

/-- An instruction rule that puts a byte computed from A and the operand into A with Z and N and returns 1 (R163 to
R165, R240). -/
def PutsInA (mk : Operand → Instr) (value : Byte → Byte → Byte) : Prop :=
  ∀ (m : Operand) (s : State), (mk m).wellFormed = true →
    ∃ t, exec (mk m) s = .next t ∧
      t = { fetchedState m s with
            a := value s.a (operandValue m s), sr := t.sr, cycles := s.cycles + pageCycle m s } ∧
      ZNOf t.a t.sr ∧ FlagsKept [.z, .n] s.sr t.sr

/-- INC or DEC (R190, R191): the number `result` becomes `temp`, its low byte goes back to the operand's address. -/
def StepsMemory (mk : Operand → Instr) (result : Nat → Nat) : Prop :=
  ∀ (m : Operand) (s : State), (mk m).wellFormed = true → s.mem.wf = true →
    ∃ t, exec (mk m) s = .next t ∧
      let r := BitVec.ofNat 8 (result (operandValue m s).toNat)
      t = { fetchedState m s with temp := t.temp, sr := t.sr, mem := t.mem } ∧
      t.temp.toNat = result (operandValue m s).toNat ∧
      (∀ b, t.load b = if b = effectiveAddress m s then r else s.load b) ∧
      ZNOf r t.sr ∧ FlagsKept [.z, .n] s.sr t.sr

/-- A store rule (R243 to R245): the register's byte goes to the operand's address; nothing is fetched, no flag moves. -/
def StoresReg (mk : Operand → Instr) (reg : State → Byte) : Prop :=
  ∀ (m : Operand) (s : State), (mk m).wellFormed = true → s.mem.wf = true →
    ∃ t, exec (mk m) s = .next t ∧
      t = { resolvedState m s with mem := t.mem } ∧
      ∀ b, t.load b = if b = effectiveAddress m s then reg s else s.load b

/-- What an interrupt entry stacks (R228, R303): the return address high byte first, then the status copy, at SP,
SP - 1 and SP - 2; every other byte is as before. -/
def StacksFrame (ret : Addr) (copy : Byte) (s t : State) : Prop :=
  ∀ b, t.load b =
    if b = stackAddr s.sp then hiByte ret
    else if b = stackAddr (s.sp - 1) then loByte ret
    else if b = stackAddr (s.sp - 2) then copy
    else s.load b

/-- `t'` still holds SP and the three bytes that an entry from `s` to `t` stacked (R230). -/
def FrameUntouched (s t t' : State) : Prop :=
  t'.sp = t.sp ∧ t'.load (stackAddr s.sp) = t.load (stackAddr s.sp) ∧
    t'.load (stackAddr (s.sp - 1)) = t.load (stackAddr (s.sp - 1)) ∧
    t'.load (stackAddr (s.sp - 2)) = t.load (stackAddr (s.sp - 2))

/-! ## Runs -/

/-- What holds of every state of a run: memory canonical, `cycles` at most 8 (R38), `addr_rel` a sign-extended byte
(R36). -/
abbrev Invariant (s : State) : Prop :=
  s.mem.wf = true ∧ s.cycles ≤ 8 ∧ s.addrRel = sext (loByte s.addrRel)

/-- The states agree on all but the latches `fetched`, `temp`, `addr_abs`, `addr_rel` and `opcode` (R39). -/
def SameButLatches (s t : State) : Prop :=
  t = { s with fetched := t.fetched, temp := t.temp, addrAbs := t.addrAbs, addrRel := t.addrRel, opcode := t.opcode }

/-- The driver's next call: the head of its script, `clock()` when the script is used up (log 1). -/
def nextDriverCall (s : State) : DriverCall := s.driver.headD .clock

/-- An opcode byte of one of the 105 illegal slots (R103). -/
def isIllegalSlot (op : Byte) : Bool := nopStarSlots.contains op || illSlots.contains op

/-- An instruction of an illegal slot. -/
def isIllegal : Instr → Bool
  | .nopStar _ => true
  | .ill _ => true
  | _ => false

end Sys2Proof.Machine
end

