-- ==== Sys2Proof/Certificates/Slice0/Obligations.lean ====
section
/-! DEFINITION. The statements for the provers. Each docstring names the rules of spec/ it formalises, or the log entry of
a convention of the model's own that it rests on. -/

open Sys2Proof Sys2Proof.Machine

/-! ## Encoding -/

/-- Decoding the encoding of any well-formed instruction, whatever follows it, gives the instruction back (R90, R91). -/
def Obligations.DecodeOfEncodeIsTheInstruction : Prop :=
  ∀ (i : Instr) (rest : List Byte), i.wellFormed = true → decode (encode i ++ rest) = .ok (i, rest)

/-- What `decode` answers is well formed and encodes back to the bytes it read (R90, R93). -/
def Obligations.EncodeOfDecodeIsTheBytes : Prop :=
  ∀ (bs : List Byte) (i : Instr) (rest : List Byte),
    decode bs = .ok (i, rest) → i.wellFormed = true ∧ encode i ++ rest = bs

/-- Words written out from R91, R101, R104 and R105, one or more for each family, decode to what they stand for. -/
def Obligations.WordsOfTheListingDecode : Prop :=
  decode [0x69, 0x50] = .ok (.adc (.imm 0x50), []) ∧
  decode [0xFD, 0xF0, 0x12] = .ok (.sbc (.abx 0x12F0), []) ∧
  decode [0x2C, 0x00, 0x20] = .ok (.bit (.abs 0x2000), []) ∧
  decode [0x6A] = .ok (.ror .imp, []) ∧
  decode [0x1E, 0xF0, 0x12] = .ok (.asl (.abx 0x12F0), []) ∧
  decode [0xC6, 0x10] = .ok (.dec (.zp0 0x10), []) ∧
  decode [0x88] = .ok (.dey, []) ∧
  decode [0xD0, 0xFA] = .ok (.bne 0xFA, []) ∧
  decode [0x6C, 0xFF, 0x30] = .ok (.jmp (.ind 0x30FF), []) ∧
  decode [0x20, 0x00, 0x90] = .ok (.jsr 0x9000, []) ∧
  decode [0x00, 0xEA] = .ok (.brk, [0xEA]) ∧
  decode [0xB6, 0xFF] = .ok (.ldx (.zpy 0xFF), []) ∧
  decode [0x91, 0x86] = .ok (.sta (.izy 0x86), []) ∧
  decode [0xA1, 0x20] = .ok (.lda (.izx 0x20), []) ∧
  decode [0x78] = .ok (.sei, []) ∧
  decode [0x1C, 0xFF] = .ok (.nopStar 0x1C, [0xFF]) ∧
  decode [0xEB] = .ok (.ill 0xEB, [])

/-- R94, R107: every opcode byte has a descriptor; the instruction decoded is its mnemonic in its mode and is as long as
the mode says; its base count is the one that R101, R104 or R105 lists for the slot under that mnemonic, and so 2 to 8. -/
def Obligations.EveryOpcodeHasItsSlot : Prop :=
  slotTable.length = 256 ∧
  ∀ op b1 b2 : Byte, ∃ i,
    decode [op, b1, b2] = .ok (i, [b1, b2].drop (i.length - 1)) ∧
    i.mnemonic = (descriptor op).mnemonic ∧ i.operand.mode = (descriptor op).mode ∧
    i.length = 1 + (descriptor op).mode.operandBytes ∧
    (listedBaseCycles (descriptor op).mnemonic).lookup op = some (descriptor op).base ∧
    2 ≤ (descriptor op).base ∧ (descriptor op).base ≤ 8

/-! ## The control sequencer -/

/-- R120, R122, R123: when `cycles` is 0 and the bytes at PC decode to `i`, a step latches the opcode byte, moves PC past
it, loads the slot's base count, runs `exec i`, and takes one cycle off. -/
def Obligations.StepRunsTheDecodedInstruction : Prop :=
  ∀ (s : State) (i : Instr) (rest : List Byte), s.driver = [] → s.cycles = 0 →
    decode [s.load s.pc, s.load (s.pc + 1), s.load (s.pc + 2)] = .ok (i, rest) →
    step s =
      match exec i { s with
          opcode := s.load s.pc, pc := s.pc + 1, cycles := (descriptor (s.load s.pc)).base } with
      | .next t => .next { t with cycles := t.cycles - 1 }
      | .fault r => .fault r
      | .refused r => .refused r

/-- R121: a `clock()` call that finds `cycles > 0` only takes one off. -/
def Obligations.IdleClockOnlyCountsDown : Prop :=
  ∀ s : State, s.driver = [] → s.cycles ≠ 0 → step s = .next { s with cycles := s.cycles - 1 }

/-- The cycles an instruction adds to the base count, for every instruction: the page-crossing cycle, the branch cycles,
none otherwise (R123, R127, R128, R200, R351). -/
def Obligations.CyclesBeyondTheBaseCount : Prop :=
  ∀ (i : Instr) (s t : State), i.wellFormed = true → exec i s = .next t →
    t.cycles = s.cycles + BitVec.ofNat 8 (extraCycles i s)

/-- R124: a dispatch that leaves `cycles = n` occupies exactly `n` calls of `clock()`; `n` is the base count and the
extra cycles; `complete()` is false after the first `n - 1` and true after the `n`-th, with nothing but `cycles` changed
since the dispatch, so that the next call dispatches again. -/
def Obligations.DispatchOccupiesItsCycles : Prop :=
  ∀ s u : State, s.driver = [] → s.cycles = 0 → dispatch s = .next u →
    u.cycles.toNat = (descriptor (s.load s.pc)).base.toNat + extraCycles (instrAt s) (afterFetch s) ∧
    (∀ k, 0 < k → k < u.cycles.toNat →
      ∃ t, core.run k s = .next t ∧ State.complete t = false) ∧
    core.run u.cycles.toNat s = .next { u with cycles := 0 }

/-- Calling `clock()` until `complete()` from a state with `complete()` true performs exactly one dispatch (R131;
`completeInstruction`, log 12). -/
def Obligations.CompleteInstructionDispatchesOnce : Prop :=
  ∀ s u : State, s.cycles = 0 → dispatch s = .next u → completeInstruction s = .next { u with cycles := 0 }

/-- R341: the 8 calls of `clock()` after `reset()` dispatch nothing, and then `complete()` is true with PC at the address
in the reset vector. -/
def Obligations.ResetLatencyDispatchesNothing : Prop :=
  ∀ s : State, s.driver = [] →
    (∀ k, k ≤ 8 → core.run k (resetCall s) = .next { resetCall s with cycles := 8 - BitVec.ofNat 8 k }) ∧
    (resetCall s).pc = concat (s.load 0xFFFD) (s.load 0xFFFC)

/-! ## The driver's calls -/

/-- R43: the state at construction, for any memory contents and policy. -/
def Obligations.ConstructionIsAllZero : Prop :=
  ∀ (mem0 : Memory) (cfg : Config),
    let s := State.construct mem0 cfg
    s.a = 0 ∧ s.x = 0 ∧ s.y = 0 ∧ s.pc = 0 ∧ s.sp = 0 ∧ s.sr = 0 ∧ s.cycles = 0 ∧ s.fetched = 0 ∧ s.temp = 0 ∧
      s.addrAbs = 0 ∧ s.addrRel = 0 ∧ s.opcode = 0 ∧ s.mem = mem0 ∧
      step s = clock s ∧ clock s = (match dispatch s with
        | .next t => .next { t with cycles := t.cycles - 1 }
        | .fault r => .fault r
        | .refused r => .refused r)

/-- R44: what `reset()` leaves, from any state. -/
def Obligations.ResetSetsTheStatedValues : Prop :=
  ∀ s : State, drive .reset s = .next
    { a := 0, x := 0, y := 0, sp := 0xFD, sr := 0x20
      pc := concat (s.load 0xFFFD) (s.load 0xFFFC)
      cycles := 8, addrAbs := 0, addrRel := 0, fetched := 0
      temp := s.temp, opcode := s.opcode, mem := s.mem, cfg := s.cfg, driver := s.driver }

/-- The reset state is `reset()` on the construction state with the blank memory and the default policy: the model's
choice of MEM0 (log 2) and of what precedes the reset (log 4). -/
def Obligations.ResetStateIsResetAfterConstruction : Prop :=
  State.reset = resetCall (State.construct [] Config.default) ∧
    State.reset.pc = 0 ∧ State.reset.sp = 0xFD ∧ State.reset.sr = 0x20 ∧ State.reset.cycles = 8

/-- R303, R304, R306: `irq()` between instructions. With I = 1 it changes nothing; with I = 0 it stacks PC and the status
copy (B = 0, U = 1), sets I and U and clears B in SR, loads PC from 0xFFFE and sets `cycles` to 7. -/
def Obligations.IrqIsTakenUnlessMasked : Prop :=
  ∀ s : State, s.cycles = 0 →
    (s.flag .i = true → drive (.interrupt .irq) s = .next s) ∧
    (s.flag .i = false → s.mem.wf = true →
      ∃ t, drive (.interrupt .irq) s = .next t ∧
        t = { s with
              pc := concat (s.load 0xFFFF) (s.load 0xFFFE), sp := s.sp - 3, sr := t.sr, cycles := 7, mem := t.mem } ∧
        StacksFrame s.pc ((s.sr &&& ~~~0x10) ||| 0x20) s t ∧
        t.flag .i = true ∧ t.flag .b = false ∧ t.flag .u = true ∧ FlagsKept [.i, .b, .u] s.sr t.sr)

/-- R305: `nmi()` between instructions is taken whatever I is, through 0xFFFA. -/
def Obligations.NmiIsAlwaysTaken : Prop :=
  ∀ s : State, s.cycles = 0 → s.mem.wf = true →
    ∃ t, drive (.interrupt .nmi) s = .next t ∧
      t = { s with
            pc := concat (s.load 0xFFFB) (s.load 0xFFFA), sp := s.sp - 3, sr := t.sr, cycles := 7, mem := t.mem } ∧
      StacksFrame s.pc ((s.sr &&& ~~~0x10) ||| 0x20) s t ∧
      t.flag .i = true ∧ t.flag .b = false ∧ t.flag .u = true ∧ FlagsKept [.i, .b, .u] s.sr t.sr

/-- R309: `irq()` (masked or not) and `nmi()` with `cycles != 0` are the model fault; with `cycles = 0` they are not. -/
def Obligations.InterruptMidInstructionFaults : Prop :=
  ∀ (s : State) (k : InterruptCall),
    drive (.interrupt k) s = .fault (.interruptMidInstruction k) ↔ s.cycles ≠ 0

/-- R300: a step has exactly two outcomes that are not a next state, and when each occurs. -/
def Obligations.MachineStopsOnlyInTheTwoStatedWays : Prop :=
  ∀ s : State,
    (∀ f, step s = .fault f ↔
      ∃ k, nextDriverCall s = .interrupt k ∧ s.cycles ≠ 0 ∧ f = .interruptMidInstruction k) ∧
    (∀ r, step s = .refused r ↔
      nextDriverCall s = .clock ∧ s.cycles = 0 ∧ s.cfg.illegalOpcodePolicy = .refuse ∧
        isIllegalSlot (s.load s.pc) = true ∧ r = .illegalOpcode (s.load s.pc) s.pc)

/-- The driver's script is made call by call, and then `clock()` for ever: the model's own way to hold the driver
(log 1). -/
def Obligations.ScriptedCallsAreMadeInOrder : Prop :=
  ∀ s : State,
    (s.driver = [] → step s = drive .clock s) ∧
    (∀ call rest, s.driver = call :: rest → step s = drive call { s with driver := rest }) ∧
    (∀ call t, drive call s = .next t → t.driver = s.driver)

/-- R230: RTI after an entry by `irq()`, `nmi()` or BRK that finds SP and the three stacked bytes untouched restores PC,
and SR with B = 0 and U = 1; after BRK with I = 1 as well. PC in the BRK case is the opcode address + 1, so the
return is to the opcode address + 2. -/
def Obligations.InterruptEntryAndReturn : Prop :=
  ∀ s t t' : State, s.mem.wf = true → FrameUntouched s t t' →
    (∀ k, (k = .irq → s.flag .i = false) → drive (.interrupt k) s = .next t →
      ∃ u, exec .rti t' = .next u ∧ u.pc = s.pc ∧ u.sp = s.sp ∧
        u.flag .b = false ∧ u.flag .u = true ∧ FlagsKept [.b, .u] s.sr u.sr) ∧
    (exec .brk s = .next t →
      ∃ u, exec .rti t' = .next u ∧ u.pc = s.pc + 1 ∧ u.sp = s.sp ∧
        u.flag .b = false ∧ u.flag .u = true ∧ u.flag .i = true ∧ FlagsKept [.b, .u, .i] s.sr u.sr)

/-! ## Memory, invariants, whole-machine rules -/

/-- The canonical form: two memories in it that read the same at every address are equal (the model's form of R62, log 2). -/
def Obligations.EqualReadsMeanEqualMemories : Prop :=
  ∀ m m' : Memory, m.wf = true → m'.wf = true → (∀ a, m.read a = m'.read a) → m = m'

/-- The invariant holds right after reset. -/
def Obligations.InvariantHoldsAtReset : Prop := Invariant State.reset

/-- The invariant is kept by every step: memory stays canonical, `cycles` at most 8 (R38), `addr_rel` a sign-extended byte
(R36). -/
def Obligations.StepKeepsTheInvariant : Prop :=
  ∀ s t : State, Invariant s → step s = .next t → Invariant t

/-- R28: U is 1 after every reload and interrupt entry, no other instruction changes it, and once it is 1 every step keeps
it 1. -/
def Obligations.UnusedBitStaysSet : Prop :=
  (∀ s t : State, step s = .next t → s.flag .u = true → t.flag .u = true) ∧
  (∀ s : State, (resetCall s).flag .u = true) ∧
  (∀ (i : Instr) (s t : State), exec i s = .next t →
    if i = .plp ∨ i = .rti then t.flag .u = true else t.flag .u = s.flag .u) ∧
  (∀ (k : InterruptCall) (s t : State), interruptCall k s = .next t →
    (k = .irq → s.flag .i = false) → t.flag .u = true)

/-- The latches cannot be told from outside: states that differ only in them step to states that differ only in them
(R39: no rule reads a latch that the current dispatch has not written first). -/
def Obligations.LatchesAreUnobservable : Prop :=
  ∀ s t s' : State, SameButLatches s t → step s = .next s' →
    ∃ t', step t = .next t' ∧ SameButLatches s' t'

/-- Every instruction that is not an illegal slot under the policy `refuse` completes: no opcode halts the core and none
raises an exception (R130, R301). -/
def Obligations.EveryInstructionCompletes : Prop :=
  ∀ (i : Instr) (s : State), isIllegal i = false ∨ s.cfg.illegalOpcodePolicy = .nop → ∃ t, exec i s = .next t

/-- No instruction writes a flag that R31 does not list for it. -/
def Obligations.FlagsChangeOnlyAsListed : Prop :=
  ∀ (i : Instr) (s t : State), exec i s = .next t → FlagsKept (flagsWritten i.mnemonic) s.sr t.sr

/-- No instruction writes A, X, Y or SP unless its rule says so (R21, R22, R220 to R229, R251). -/
def Obligations.RegistersChangeOnlyAsListed : Prop :=
  ∀ (i : Instr) (s t : State), exec i s = .next t → ∀ r, r ∉ registersWritten i → t.reg r = s.reg r

/-- Every byte of memory outside the addresses an instruction stores to reads as before; an instruction that stores
nothing changes no byte (R69). -/
def Obligations.MemoryChangesOnlyWhereStored : Prop :=
  ∀ (i : Instr) (s t : State), s.mem.wf = true → exec i s = .next t →
    ∀ b, b ∉ storesTo i s → t.load b = s.load b

/-- What else an instruction leaves alone: `opcode`, the launch's policy and the driver's script always; `temp` unless R34
lists it; `addr_rel` unless it is a branch (R36); `addr_abs` where the mode is Implied (R140) and by a branch not taken
(R35, R200); `fetched` where the mode is not Implied and the handler does not call `fetch()`: STA, STX, STY, JMP, JSR and
the branches (R33, R126). -/
def Obligations.LatchesAndParametersKept : Prop :=
  ∀ (i : Instr) (s t : State), i.wellFormed = true → exec i s = .next t →
    t.opcode = s.opcode ∧ t.cfg = s.cfg ∧ t.driver = s.driver ∧
    (writesTemp i.mnemonic = false → t.temp = s.temp) ∧
    (i.operand.mode ≠ .rel → t.addrRel = s.addrRel) ∧
    (i.operand.mode = .imp → t.addrAbs = s.addrAbs) ∧
    (∀ f on, branchTest i.mnemonic = some (f, on) → s.flag f ≠ on → t.addrAbs = s.addrAbs) ∧
    (i.operand.mode ≠ .imp → callsFetch i.mnemonic = false → t.fetched = s.fetched)

/-! ## Addressing modes -/

/-- R141 to R150: what each of these resolvers leaves in PC, `addr_abs` and `addr_rel`, and the signal it returns. The
pointer of R149 is written `concat hi lo`: its high byte comes from its own page. -/
def Obligations.ResolversComputeTheirAddresses : Prop :=
  ∀ s : State,
    (∀ nn, resolve (.imm nn) s = { s with addrAbs := s.pc, pc := s.pc + 1 } ∧ pageCrossed (.imm nn) s = false) ∧
    (∀ dd, resolve (.rel dd) s = { s with addrRel := sext dd, pc := s.pc + 1 } ∧ pageCrossed (.rel dd) s = false) ∧
    (∀ aa, resolve (.zp0 aa) s = { s with addrAbs := concat 0 aa, pc := s.pc + 1 } ∧ pageCrossed (.zp0 aa) s = false) ∧
    (∀ aa, resolve (.zpx aa) s = { s with addrAbs := concat 0 (aa + s.x), pc := s.pc + 1 } ∧
      pageCrossed (.zpx aa) s = false) ∧
    (∀ aa, resolve (.zpy aa) s = { s with addrAbs := concat 0 (aa + s.y), pc := s.pc + 1 } ∧
      pageCrossed (.zpy aa) s = false) ∧
    (∀ w, resolve (.abs w) s = { s with addrAbs := w, pc := s.pc + 2 } ∧ pageCrossed (.abs w) s = false) ∧
    (∀ w, resolve (.abx w) s = { s with addrAbs := w + concat 0 s.x, pc := s.pc + 2 } ∧
      (pageCrossed (.abx w) s = true ↔ 256 ≤ w.toNat % 256 + s.x.toNat)) ∧
    (∀ w, resolve (.aby w) s = { s with addrAbs := w + concat 0 s.y, pc := s.pc + 2 } ∧
      (pageCrossed (.aby w) s = true ↔ 256 ≤ w.toNat % 256 + s.y.toNat)) ∧
    (∀ lo hi, resolve (.ind (concat hi lo)) s =
        { s with addrAbs := concat (s.load (concat hi (lo + 1))) (s.load (concat hi lo)), pc := s.pc + 2 } ∧
      pageCrossed (.ind (concat hi lo)) s = false) ∧
    (∀ tt, resolve (.izx tt) s =
        { s with
          addrAbs := concat (s.load (concat 0 (tt + s.x + 1))) (s.load (concat 0 (tt + s.x))), pc := s.pc + 1 } ∧
      pageCrossed (.izx tt) s = false)

/-- R140 and R151: Implied latches A and consumes nothing; Indirect-Y dereferences in page 0 (the wrap of its pointer's
high byte is the spec's decision D6) and then adds Y. The address computation written with numbers in `crossesPage` is
the resolver's own signal for every mode. -/
def Obligations.ImpliedAndIndirectYResolvers : Prop :=
  ∀ s : State,
    (resolve .imp s = { s with fetched := s.a } ∧ pageCrossed .imp s = false) ∧
    (∀ tt, resolve (.izy tt) s =
        { s with
          addrAbs := concat (s.load (concat 0 (tt + 1))) (s.load (concat 0 tt)) + concat 0 s.y, pc := s.pc + 1 } ∧
      (pageCrossed (.izy tt) s = true ↔ 256 ≤ (s.load (concat 0 tt)).toNat + s.y.toNat)) ∧
    ∀ m, pageCrossed m s = crossesPage m s

/-! ## Arithmetic, logic, compare -/

/-- R161: ADC. -/
def Obligations.AdcAddsWithCarry : Prop :=
  EncodedAs .adc [(.imm, 0x69), (.zp0, 0x65), (.zpx, 0x75), (.abs, 0x6D), (.abx, 0x7D), (.aby, 0x79), (.izx, 0x61),
    (.izy, 0x71)] ∧
  ∀ (m : Operand) (s : State), (Instr.adc m).wellFormed = true →
    ∃ t, exec (.adc m) s = .next t ∧
      let v := operandValue m s
      let sum := s.a.toNat + v.toNat + (s.flag .c).toNat
      t = { fetchedState m s with
            temp := t.temp, a := t.a, sr := t.sr, cycles := s.cycles + pageCycle m s } ∧
      t.temp.toNat = sum ∧ t.a.toNat = sum % 256 ∧
      (t.flag .c = true ↔ 256 ≤ sum) ∧ ZNOf t.a t.sr ∧
      (t.flag .v = true ↔ ~~~(s.a ^^^ v) &&& (s.a ^^^ t.a) &&& 0x80 ≠ 0) ∧
      FlagsKept [.c, .z, .v, .n] s.sr t.sr

/-- R162: SBC is the sum of ADC on the complemented operand W: its 16-bit sum, flags and result, and so A - M - (1 - C)
modulo 256 with C = 1 exactly when A ≥ M + (1 - C). -/
def Obligations.SbcSubtractsWithBorrow : Prop :=
  EncodedAs .sbc [(.imm, 0xE9), (.zp0, 0xE5), (.zpx, 0xF5), (.abs, 0xED), (.abx, 0xFD), (.aby, 0xF9), (.izx, 0xE1),
    (.izy, 0xF1)] ∧
  ∀ (m : Operand) (s : State), (Instr.sbc m).wellFormed = true →
    ∃ t, exec (.sbc m) s = .next t ∧
      let v := operandValue m s
      let w := v ^^^ 0xFF
      let borrow := 1 - (s.flag .c).toNat
      t = { fetchedState m s with
            temp := t.temp, a := t.a, sr := t.sr, cycles := s.cycles + pageCycle m s } ∧
      t.temp.toNat = s.a.toNat + w.toNat + (s.flag .c).toNat ∧
      t.a.toNat = t.temp.toNat % 256 ∧ (t.flag .c = true ↔ 256 ≤ t.temp.toNat) ∧
      t.a.toNat = (512 + s.a.toNat - v.toNat - borrow) % 256 ∧
      (t.flag .c = true ↔ v.toNat + borrow ≤ s.a.toNat) ∧ ZNOf t.a t.sr ∧
      (t.flag .v = true ↔ ~~~(s.a ^^^ w) &&& (s.a ^^^ t.a) &&& 0x80 ≠ 0) ∧
      FlagsKept [.c, .z, .v, .n] s.sr t.sr

/-- R171: the overflow law of ADC and SBC; for SBC it is the signed value of A - M - (1 - C) leaving -128..127, and the
form (R ^ A) & (R ^ W) & 0x80 says the same. -/
def Obligations.OverflowLaw : Prop :=
  ∀ (m : Operand) (s t : State),
    let v := operandValue m s
    let w := v ^^^ 0xFF
    ((Instr.adc m).wellFormed = true → exec (.adc m) s = .next t →
      (t.flag .v = true ↔ s.a.msb = v.msb ∧ t.a.msb ≠ s.a.msb)) ∧
    ((Instr.sbc m).wellFormed = true → exec (.sbc m) s = .next t →
      (t.flag .v = true ↔ s.a.msb = w.msb ∧ t.a.msb ≠ s.a.msb) ∧
      (t.flag .v = true ↔ (t.a ^^^ s.a) &&& (t.a ^^^ w) &&& 0x80 ≠ 0) ∧
      (t.flag .v = true ↔
        s.a.toInt - v.toInt - (1 - (s.flag .c).toNat) < -128 ∨ 127 < s.a.toInt - v.toInt - (1 - (s.flag .c).toNat)))

/-- D has no numeric effect: ADC and SBC with D flipped give the same state with D flipped (R30, R160). -/
def Obligations.DecimalFlagHasNoNumericEffect : Prop :=
  ∀ (m : Operand) (s t : State) (on : Bool),
    (exec (.adc m) s = .next t →
      exec (.adc m) { s with sr := setFlag .d on s.sr } = .next { t with sr := setFlag .d on t.sr }) ∧
    (exec (.sbc m) s = .next t →
      exec (.sbc m) { s with sr := setFlag .d on s.sr } = .next { t with sr := setFlag .d on t.sr })

/-- R163, R164, R165: AND, ORA, EOR. -/
def Obligations.LogicOperations : Prop :=
  EncodedAs .and [(.imm, 0x29), (.zp0, 0x25), (.zpx, 0x35), (.abs, 0x2D), (.abx, 0x3D), (.aby, 0x39), (.izx, 0x21),
    (.izy, 0x31)] ∧
  EncodedAs .ora [(.imm, 0x09), (.zp0, 0x05), (.zpx, 0x15), (.abs, 0x0D), (.abx, 0x1D), (.aby, 0x19), (.izx, 0x01),
    (.izy, 0x11)] ∧
  EncodedAs .eor [(.imm, 0x49), (.zp0, 0x45), (.zpx, 0x55), (.abs, 0x4D), (.abx, 0x5D), (.aby, 0x59), (.izx, 0x41),
    (.izy, 0x51)] ∧
  PutsInA .and (fun a v => a &&& v) ∧ PutsInA .ora (fun a v => a ||| v) ∧ PutsInA .eor (fun a v => a ^^^ v)

/-- R166: BIT takes Z from A & M, N and V from M, and changes neither A nor memory. -/
def Obligations.BitTestsMemory : Prop :=
  EncodedAs .bit [(.zp0, 0x24), (.abs, 0x2C)] ∧
  ∀ (m : Operand) (s : State), (Instr.bit m).wellFormed = true →
    ∃ t, exec (.bit m) s = .next t ∧
      let v := operandValue m s
      t = { fetchedState m s with temp := concat 0 (s.a &&& v), sr := t.sr } ∧
      (t.flag .z = true ↔ s.a &&& v = 0) ∧ t.flag .n = v.getLsbD 7 ∧ t.flag .v = v.getLsbD 6 ∧
      FlagsKept [.z, .v, .n] s.sr t.sr

/-- R167 to R170: the compares are unsigned on C and Z, and N is bit 7 of the wrapping difference. -/
def Obligations.ComparesAreUnsigned : Prop :=
  EncodedAs .cmp [(.imm, 0xC9), (.zp0, 0xC5), (.zpx, 0xD5), (.abs, 0xCD), (.abx, 0xDD), (.aby, 0xD9), (.izx, 0xC1),
    (.izy, 0xD1)] ∧
  EncodedAs .cpx [(.imm, 0xE0), (.zp0, 0xE4), (.abs, 0xEC)] ∧
  EncodedAs .cpy [(.imm, 0xC0), (.zp0, 0xC4), (.abs, 0xCC)] ∧
  ComparesWith .cmp State.a true ∧ ComparesWith .cpx State.x false ∧ ComparesWith .cpy State.y false

/-! ## Shift, rotate, increment, decrement -/

/-- R180, R181, R182: ASL and LSR. -/
def Obligations.AslAndLsrShift : Prop :=
  EncodedAs .asl [(.imp, 0x0A), (.zp0, 0x06), (.zpx, 0x16), (.abs, 0x0E), (.abx, 0x1E)] ∧
  EncodedAs .lsr [(.imp, 0x4A), (.zp0, 0x46), (.zpx, 0x56), (.abs, 0x4E), (.abx, 0x5E)] ∧
  ShiftsTo .asl (fun v _ => 2 * v) (fun v _ => decide (128 ≤ v)) ∧
  ShiftsTo .lsr (fun v _ => v / 2) (fun v _ => decide (v % 2 = 1))

/-- R180, R183, R184: ROL and ROR rotate through the old carry. -/
def Obligations.RolAndRorRotateThroughCarry : Prop :=
  EncodedAs .rol [(.imp, 0x2A), (.zp0, 0x26), (.zpx, 0x36), (.abs, 0x2E), (.abx, 0x3E)] ∧
  EncodedAs .ror [(.imp, 0x6A), (.zp0, 0x66), (.zpx, 0x76), (.abs, 0x6E), (.abx, 0x7E)] ∧
  ShiftsTo .rol (fun v c => 2 * v + c) (fun v _ => decide (128 ≤ v)) ∧
  ShiftsTo .ror (fun v c => 128 * c + v / 2) (fun v _ => decide (v % 2 = 1))

/-- R190, R191: INC and DEC. -/
def Obligations.IncAndDecStepMemory : Prop :=
  EncodedAs .inc [(.zp0, 0xE6), (.zpx, 0xF6), (.abs, 0xEE), (.abx, 0xFE)] ∧
  EncodedAs .dec [(.zp0, 0xC6), (.zpx, 0xD6), (.abs, 0xCE), (.abx, 0xDE)] ∧
  StepsMemory .inc (fun v => v + 1) ∧ StepsMemory .dec (fun v => (v + 65535) % 65536)

/-- R192 to R195: INX, INY, DEX, DEY. -/
def Obligations.RegisterSteps : Prop :=
  ImpliedSlot .inx 0xE8 2 ∧ ImpliedSlot .iny 0xC8 2 ∧ ImpliedSlot .dex 0xCA 2 ∧ ImpliedSlot .dey 0x88 2 ∧
  ∀ s : State,
    (∃ t, exec .inx s = .next t ∧ t = { s with fetched := s.a, x := t.x, sr := t.sr } ∧
      t.x.toNat = (s.x.toNat + 1) % 256 ∧ ZNOf t.x t.sr ∧ FlagsKept [.z, .n] s.sr t.sr) ∧
    (∃ t, exec .iny s = .next t ∧ t = { s with fetched := s.a, y := t.y, sr := t.sr } ∧
      t.y.toNat = (s.y.toNat + 1) % 256 ∧ ZNOf t.y t.sr ∧ FlagsKept [.z, .n] s.sr t.sr) ∧
    (∃ t, exec .dex s = .next t ∧ t = { s with fetched := s.a, x := t.x, sr := t.sr } ∧
      t.x.toNat = (s.x.toNat + 255) % 256 ∧ ZNOf t.x t.sr ∧ FlagsKept [.z, .n] s.sr t.sr) ∧
    (∃ t, exec .dey s = .next t ∧ t = { s with fetched := s.a, y := t.y, sr := t.sr } ∧
      t.y.toNat = (s.y.toNat + 255) % 256 ∧ ZNOf t.y t.sr ∧ FlagsKept [.z, .n] s.sr t.sr)

/-! ## Branches and jumps -/

/-- R200 to R209: the eight branches, taken and not taken, with their cycles. -/
def Obligations.BranchesGoWhereTheySay : Prop :=
  BranchesOn .bcc 0x90 .c false ∧ BranchesOn .bcs 0xB0 .c true ∧ BranchesOn .beq 0xF0 .z true ∧
  BranchesOn .bmi 0x30 .n true ∧ BranchesOn .bne 0xD0 .z false ∧ BranchesOn .bpl 0x10 .n false ∧
  BranchesOn .bvc 0x50 .v false ∧ BranchesOn .bvs 0x70 .v true

/-- R149, R210: JMP, the Indirect form taking its high byte from the pointer's own page. -/
def Obligations.JmpGoesToItsTarget : Prop :=
  EncodedAs .jmp [(.abs, 0x4C), (.ind, 0x6C)] ∧ (descriptor 0x4C).base = 3 ∧ (descriptor 0x6C).base = 5 ∧
  ∀ s : State,
    (∀ w, exec (.jmp (.abs w)) s = .next { s with addrAbs := w, pc := w }) ∧
    (∀ lo hi,
      let target := concat (s.load (concat hi (lo + 1))) (s.load (concat hi lo))
      exec (.jmp (.ind (concat hi lo))) s = .next { s with addrAbs := target, pc := target })

/-! ## Stack, subroutine, BRK and RTI -/

/-- R221, R222: PHP pushes the status copy with B and U set and keeps SR; PLA pulls A with Z and N. -/
def Obligations.PhpPushesAndPlaPulls : Prop :=
  ImpliedSlot .php 0x08 3 ∧ ImpliedSlot .pla 0x68 4 ∧
  (∀ s : State, s.mem.wf = true →
    ∃ t, exec .php s = .next t ∧ t = { s with fetched := s.a, sp := s.sp - 1, mem := t.mem } ∧
      ∀ b, t.load b = if b = concat 1 s.sp then s.sr ||| 0x30 else s.load b) ∧
  ∀ s : State,
    let v := s.load (concat 1 (s.sp + 1))
    ∃ t, exec .pla s = .next t ∧ t = { s with fetched := s.a, sp := s.sp + 1, a := v, sr := t.sr } ∧
      ZNOf v t.sr ∧ FlagsKept [.z, .n] s.sr t.sr

/-- R220, R223: PHA pushes A; PLP takes every flag from the pulled byte but U, which becomes 1 (the spec's decision D11
keeps B as pulled). -/
def Obligations.PhaPushesAndPlpPulls : Prop :=
  ImpliedSlot .pha 0x48 3 ∧ ImpliedSlot .plp 0x28 4 ∧
  (∀ s : State, s.mem.wf = true →
    ∃ t, exec .pha s = .next t ∧ t = { s with fetched := s.a, sp := s.sp - 1, mem := t.mem } ∧
      ∀ b, t.load b = if b = concat 1 s.sp then s.a else s.load b) ∧
  ∀ s : State,
    ∃ t, exec .plp s = .next t ∧ t = { s with fetched := s.a, sp := s.sp + 1, sr := t.sr } ∧
      t.flag .u = true ∧ FlagsKept [.u] (s.load (concat 1 (s.sp + 1))) t.sr

/-- R224: PHA then PLA restores A and SP and sets Z and N from A; PHP then PLP leaves SR but for B and U, which become 1. -/
def Obligations.PushThenPullRestores : Prop :=
  ∀ s : State, s.mem.wf = true →
    (∃ t u, exec .pha s = .next t ∧ exec .pla t = .next u ∧ u.a = s.a ∧ u.sp = s.sp ∧ ZNOf s.a u.sr ∧
      FlagsKept [.z, .n] s.sr u.sr) ∧
    (∃ t u, exec .php s = .next t ∧ exec .plp t = .next u ∧ u.sp = s.sp ∧ u.flag .b = true ∧ u.flag .u = true ∧
      FlagsKept [.b, .u] s.sr u.sr)

/-- R225: JSR pushes the address of its last byte, high byte first, and jumps. PC after the opcode fetch is the opcode
address + 1, so its last byte is at PC + 1. -/
def Obligations.JsrPushesItsLastByte : Prop :=
  (∀ w, encode (.jsr w) = [0x20, loByte w, hiByte w]) ∧ (descriptor 0x20).base = 6 ∧
  ∀ (w : Addr) (s : State), s.mem.wf = true →
    ∃ t, exec (.jsr w) s = .next t ∧
      t = { s with addrAbs := w, pc := w, sp := s.sp - 2, mem := t.mem } ∧
      ∀ b, t.load b =
        if b = concat 1 s.sp then hiByte (s.pc + 1)
        else if b = concat 1 (s.sp - 1) then loByte (s.pc + 1)
        else s.load b

/-- R226: RTS pulls low byte, high byte, and continues one past the word. -/
def Obligations.RtsContinuesPastThePulledWord : Prop :=
  ImpliedSlot .rts 0x60 6 ∧
  ∀ s : State, exec .rts s = .next
    { s with
      fetched := s.a, sp := s.sp + 2
      pc := concat (s.load (concat 1 (s.sp + 2))) (s.load (concat 1 (s.sp + 1))) + 1 }

/-- R227: JSR at P, then RTS finding SP and the two stacked bytes as they were, continues at P + 3 (PC after the opcode
fetch, plus 2) with SP restored. -/
def Obligations.JsrThenRtsReturns : Prop :=
  ∀ (w : Addr) (s t t' : State), s.mem.wf = true → exec (.jsr w) s = .next t → t'.sp = t.sp →
    t'.load (concat 1 s.sp) = t.load (concat 1 s.sp) →
    t'.load (concat 1 (s.sp - 1)) = t.load (concat 1 (s.sp - 1)) →
    ∃ u, exec .rts t' = .next u ∧ u.pc = s.pc + 2 ∧ u.sp = s.sp

/-- R228: BRK, whatever I is: the frame holds PC + 1 (the opcode address + 2) and the status with B = 1 and I = 1; SR keeps
I = 1 and B = 0; PC comes from 0xFFFE. -/
def Obligations.BrkIsTheSoftwareInterrupt : Prop :=
  ImpliedSlot .brk 0x00 7 ∧
  ∀ s : State, s.mem.wf = true →
    ∃ t, exec .brk s = .next t ∧
      t = { s with
            fetched := s.a, sp := s.sp - 3, sr := t.sr, mem := t.mem
            pc := concat (s.load 0xFFFF) (s.load 0xFFFE) } ∧
      StacksFrame (s.pc + 1) (s.sr ||| 0x14) s t ∧
      t.flag .i = true ∧ t.flag .b = false ∧ FlagsKept [.i, .b] s.sr t.sr

/-- R229: RTI pulls the status with B cleared and U forced, then PC low, then PC high, with no + 1. -/
def Obligations.RtiRestoresStatusAndPc : Prop :=
  ImpliedSlot .rti 0x40 6 ∧
  ∀ s : State, ∃ t, exec .rti s = .next t ∧
    t = { s with
          fetched := s.a, sp := s.sp + 3, sr := t.sr
          pc := concat (s.load (concat 1 (s.sp + 3))) (s.load (concat 1 (s.sp + 2))) } ∧
    t.flag .b = false ∧ t.flag .u = true ∧ FlagsKept [.b, .u] (s.load (concat 1 (s.sp + 1))) t.sr

/-! ## Loads, stores, transfers -/

/-- R240, R241, R242: the loads. -/
def Obligations.LoadsPutTheOperand : Prop :=
  EncodedAs .lda [(.imm, 0xA9), (.zp0, 0xA5), (.zpx, 0xB5), (.abs, 0xAD), (.abx, 0xBD), (.aby, 0xB9), (.izx, 0xA1),
    (.izy, 0xB1)] ∧
  EncodedAs .ldx [(.imm, 0xA2), (.zp0, 0xA6), (.zpy, 0xB6), (.abs, 0xAE), (.aby, 0xBE)] ∧
  EncodedAs .ldy [(.imm, 0xA0), (.zp0, 0xA4), (.zpx, 0xB4), (.abs, 0xAC), (.abx, 0xBC)] ∧
  PutsInA .lda (fun _ v => v) ∧
  (∀ (m : Operand) (s : State), (Instr.ldx m).wellFormed = true →
    ∃ t, exec (.ldx m) s = .next t ∧
      t = { fetchedState m s with x := operandValue m s, sr := t.sr, cycles := s.cycles + pageCycle m s } ∧
      ZNOf t.x t.sr ∧ FlagsKept [.z, .n] s.sr t.sr) ∧
  (∀ (m : Operand) (s : State), (Instr.ldy m).wellFormed = true →
    ∃ t, exec (.ldy m) s = .next t ∧
      t = { fetchedState m s with y := operandValue m s, sr := t.sr, cycles := s.cycles + pageCycle m s } ∧
      ZNOf t.y t.sr ∧ FlagsKept [.z, .n] s.sr t.sr)

/-- R243, R244, R245: the stores; STA has no Immediate form, and slot 0x89 is an illegal NOP. -/
def Obligations.StoresWriteTheRegister : Prop :=
  EncodedAs .sta [(.zp0, 0x85), (.zpx, 0x95), (.abs, 0x8D), (.abx, 0x9D), (.aby, 0x99), (.izx, 0x81), (.izy, 0x91)] ∧
  EncodedAs .stx [(.zp0, 0x86), (.zpy, 0x96), (.abs, 0x8E)] ∧
  EncodedAs .sty [(.zp0, 0x84), (.zpx, 0x94), (.abs, 0x8C)] ∧
  (descriptor 0x9D).base = 5 ∧ (descriptor 0x99).base = 5 ∧ (descriptor 0x91).base = 6 ∧
  (∀ nn, (Instr.sta (.imm nn)).wellFormed = false) ∧ descriptor 0x89 = ⟨.nopStar, .imp, 2⟩ ∧
  StoresReg .sta State.a ∧ StoresReg .stx State.x ∧ StoresReg .sty State.y

/-- R246 to R251: the transfers; all but TXS set Z and N. -/
def Obligations.TransfersCopyRegisters : Prop :=
  ImpliedSlot .tax 0xAA 2 ∧ ImpliedSlot .tay 0xA8 2 ∧ ImpliedSlot .txa 0x8A 2 ∧ ImpliedSlot .tya 0x98 2 ∧
  ImpliedSlot .tsx 0xBA 2 ∧ ImpliedSlot .txs 0x9A 2 ∧
  ∀ s : State,
    (∃ t, exec .tax s = .next t ∧ t = { s with fetched := s.a, x := s.a, sr := t.sr } ∧ ZNOf s.a t.sr ∧
      FlagsKept [.z, .n] s.sr t.sr) ∧
    (∃ t, exec .tay s = .next t ∧ t = { s with fetched := s.a, y := s.a, sr := t.sr } ∧ ZNOf s.a t.sr ∧
      FlagsKept [.z, .n] s.sr t.sr) ∧
    (∃ t, exec .txa s = .next t ∧ t = { s with fetched := s.a, a := s.x, sr := t.sr } ∧ ZNOf s.x t.sr ∧
      FlagsKept [.z, .n] s.sr t.sr) ∧
    (∃ t, exec .tya s = .next t ∧ t = { s with fetched := s.a, a := s.y, sr := t.sr } ∧ ZNOf s.y t.sr ∧
      FlagsKept [.z, .n] s.sr t.sr) ∧
    (∃ t, exec .tsx s = .next t ∧ t = { s with fetched := s.a, x := s.sp, sr := t.sr } ∧ ZNOf s.sp t.sr ∧
      FlagsKept [.z, .n] s.sr t.sr) ∧
    exec .txs s = .next { s with fetched := s.a, sp := s.x }

/-! ## Flags, NOP, illegal slots -/

/-- R260 to R266: each flag instruction writes its one flag and nothing else of SR. -/
def Obligations.FlagInstructionsWriteOneFlag : Prop :=
  ImpliedSlot .clc 0x18 2 ∧ ImpliedSlot .cld 0xD8 2 ∧ ImpliedSlot .cli 0x58 2 ∧ ImpliedSlot .clv 0xB8 2 ∧
  ImpliedSlot .sec 0x38 2 ∧ ImpliedSlot .sed 0xF8 2 ∧ ImpliedSlot .sei 0x78 2 ∧
  ∀ (i : Instr) (f : Flag) (on : Bool),
    (i, f, on) ∈ [(Instr.clc, Flag.c, false), (.cld, .d, false), (.cli, .i, false), (.clv, .v, false),
      (.sec, .c, true), (.sed, .d, true), (.sei, .i, true)] →
    ∀ s : State, ∃ t, exec i s = .next t ∧ t = { s with fetched := s.a, sr := t.sr } ∧
      t.flag f = on ∧ FlagsKept [f] s.sr t.sr

/-- R267: NOP has no effect but on `fetched`, in 2 cycles. -/
def Obligations.NopDoesNothing : Prop :=
  ImpliedSlot .nop 0xEA 2 ∧ ∀ s : State, exec .nop s = .next { s with fetched := s.a }

/-- R268, R269, R270: under the policy `nop` an illegal slot has no effect but on `fetched`, and never pays an extra cycle,
the six opcodes of R268 included (the spec's decision D3). -/
def Obligations.IllegalSlotsDoNothing : Prop :=
  (∀ slot, nopStarSlots.contains slot = true → encode (.nopStar slot) = [slot]) ∧
  (∀ slot, illSlots.contains slot = true → encode (.ill slot) = [slot]) ∧
  ∀ (s : State) (slot : Byte), s.cfg.illegalOpcodePolicy = .nop →
    exec (.nopStar slot) s = .next { s with fetched := s.a } ∧ exec (.ill slot) s = .next { s with fetched := s.a }

/-- R272: under the policy `refuse` an illegal slot is refused with its opcode and the opcode's address, which PC has just
passed. -/
def Obligations.RefusePolicyRefusesIllegalSlots : Prop :=
  ∀ s : State, s.driver = [] → s.cycles = 0 → s.cfg.illegalOpcodePolicy = .refuse →
    isIllegalSlot (s.load s.pc) = true → step s = .refused (.illegalOpcode (s.load s.pc) s.pc)
end

