-- ==== Sys2Proof/Laws/Bits.lean ====
section
/-! SUPPORT. The byte and word helpers: concatenation and its halves, and each helper as a number. -/

namespace Sys2Proof

@[simp] theorem hiByte_concat (hi lo : Byte) : hiByte (concat hi lo) = hi := by
  simp only [hiByte, concat]; ext i; simp; grind

@[simp] theorem loByte_concat (hi lo : Byte) : loByte (concat hi lo) = lo := by
  simp only [loByte, concat]; ext i; simp; grind

@[simp] theorem concat_hiByte_loByte (w : Addr) : concat (hiByte w) (loByte w) = w := by
  simp only [concat, hiByte, loByte]; ext i; simp; grind

@[simp] theorem loByte_zext (b : Byte) : loByte (zext b) = b := by
  simp [loByte, zext]

@[simp] theorem loByte_sext (b : Byte) : loByte (sext b) = b := by
  simp only [loByte, sext]; ext i; simp; grind

theorem toNat_zext (b : Byte) : (zext b).toNat = b.toNat := by
  simp [zext]; omega

theorem toNat_loByte (w : Addr) : (loByte w).toNat = w.toNat % 256 := by
  simp [loByte]

theorem toNat_hiByte (w : Addr) : (hiByte w).toNat = w.toNat / 256 := by
  simp [hiByte, Nat.shiftRight_eq_div_pow]; omega

theorem toNat_concat (hi lo : Byte) : (concat hi lo).toNat = hi.toNat * 256 + lo.toNat := by
  have h := toNat_hiByte (concat hi lo)
  have l := toNat_loByte (concat hi lo)
  simp only [hiByte_concat, loByte_concat] at h l
  omega

theorem zext_injective {a b : Byte} (h : zext a = zext b) : a = b := by
  have := congrArg loByte h; simpa using this

end Sys2Proof
end

