-- ==== Sys2Proof/Laws/Decode.lean ====
section
/-! SUPPORT. The decoder's table: it has 256 rows; what holds of every row is checked once by evaluation and then read
off for any opcode byte. -/

namespace Sys2Proof

theorem slotTable_length : slotTable.length = 256 := by decide +kernel

/-- A check made on all 256 opcode numbers holds of every opcode byte. -/
theorem forall_slot {f : Byte → Bool} (h : (List.range 256).all (fun k => f (BitVec.ofNat 8 k)) = true) (op : Byte) :
    f op = true := by
  have := List.all_eq_true.mp h op.toNat (List.mem_range.mpr op.isLt)
  simpa using this

/-- What the table says of one slot: its base count, a mode its mnemonic has, and the listing of R101, R104 or R105 it
stands in. -/
def slotCheck (op : Byte) : Bool :=
  let d := descriptor op
  decide (2 ≤ d.base) && decide (d.base ≤ 8) && d.mnemonic.modes.contains d.mode &&
    match d.mnemonic with
    | .nopStar => nopStarSlots.contains op
    | .ill => illSlots.contains op
    | mn => mn.slots.lookup d.mode == some op

theorem slotCheck_all (op : Byte) : slotCheck op = true :=
  forall_slot (f := slotCheck) (by decide +kernel) op

theorem base_ge (op : Byte) : 2 ≤ (descriptor op).base := by
  have := slotCheck_all op; simp only [slotCheck, Bool.and_eq_true, decide_eq_true_eq] at this; exact this.1.1.1

theorem base_le (op : Byte) : (descriptor op).base ≤ 8 := by
  have := slotCheck_all op; simp only [slotCheck, Bool.and_eq_true, decide_eq_true_eq] at this; exact this.1.1.2

theorem slot_mode (op : Byte) : (descriptor op).mnemonic.modes.contains (descriptor op).mode = true := by
  have := slotCheck_all op; simp only [slotCheck, Bool.and_eq_true] at this; exact this.1.2

/-- The official slots of R101 and the illegal ones of R104 and R105 are the table's rows. -/
def listedCheck (mn : Mnemonic) : Bool :=
  (mn.slots.all fun p => decide ((descriptor p.2).mnemonic = mn) && decide ((descriptor p.2).mode = p.1))

theorem listed_slot (mn : Mnemonic) {mode : Mode} {op : Byte} (h : (mode, op) ∈ mn.slots) :
    (descriptor op).mnemonic = mn ∧ (descriptor op).mode = mode := by
  have hc : listedCheck mn = true := by cases mn <;> decide +kernel
  have := List.all_eq_true.mp hc _ h
  simpa only [Bool.and_eq_true, decide_eq_true_eq] using this

theorem nopStar_slot {op : Byte} (h : nopStarSlots.contains op = true) :
    (descriptor op).mnemonic = .nopStar ∧ (descriptor op).mode = .imp := by
  have := forall_slot (f := fun op => !nopStarSlots.contains op ||
    (decide ((descriptor op).mnemonic = .nopStar) && decide ((descriptor op).mode = .imp))) (by decide +kernel) op
  rw [h] at this
  simpa using this

theorem ill_slot {op : Byte} (h : illSlots.contains op = true) :
    (descriptor op).mnemonic = .ill ∧ (descriptor op).mode = .imp := by
  have := forall_slot (f := fun op => !illSlots.contains op ||
    (decide ((descriptor op).mnemonic = .ill) && decide ((descriptor op).mode = .imp))) (by decide +kernel) op
  rw [h] at this
  simpa using this

@[simp] theorem operandOf_mode (mode : Mode) (b1 b2 : Byte) : (operandOf mode b1 b2).mode = mode := by
  cases mode <;> rfl

@[simp] theorem Operand.byte_rel (dd : Byte) : (Operand.rel dd).byte = dd := by
  simp [Operand.byte, Operand.word]

@[simp] theorem Instr.ofSlot_mnemonic (mn : Mnemonic) (op : Byte) (m : Operand) :
    (Instr.ofSlot mn op m).mnemonic = mn := by cases mn <;> rfl

/-- The operand of a slot's instruction is the one formed for it, where the mnemonic has the mode. -/
theorem Instr.ofSlot_operand {mn : Mnemonic} {m : Operand} (h : mn.modes.contains m.mode = true) (op : Byte) :
    (Instr.ofSlot mn op m).operand = m := by
  cases mn <;> first
    | rfl
    | (cases m <;> first
        | rfl
        | exact absurd h Bool.false_ne_true
        | simp [Instr.ofSlot, Instr.operand])

@[simp] theorem decodeAt_mnemonic (b0 b1 b2 : Byte) : (decodeAt b0 b1 b2).mnemonic = (descriptor b0).mnemonic :=
  Instr.ofSlot_mnemonic ..

@[simp] theorem decodeAt_operand (b0 b1 b2 : Byte) :
    (decodeAt b0 b1 b2).operand = operandOf (descriptor b0).mode b1 b2 :=
  Instr.ofSlot_operand (by simpa using slot_mode b0) b0

/-- What the decoder answers is well formed, whatever the bytes. -/
theorem decodeAt_wellFormed (b0 b1 b2 : Byte) : (decodeAt b0 b1 b2).wellFormed = true := by
  have hm := slot_mode b0
  have hs := slotCheck_all b0
  simp only [Instr.wellFormed, decodeAt_mnemonic, decodeAt_operand, operandOf_mode, hm, Bool.true_and]
  simp only [slotCheck, Bool.and_eq_true] at hs
  have hl := hs.2
  unfold decodeAt
  revert hl
  cases (descriptor b0).mnemonic <;> intro hl <;> first | rfl | exact hl

/-- Decoding three bytes always answers; the operand bytes used are the mode's. -/
theorem decode_three (b0 b1 b2 : Byte) :
    decode [b0, b1, b2] =
      .ok (decodeAt b0 b1 b2, [b1, b2].drop (descriptor b0).mode.operandBytes) := by
  cases h : (descriptor b0).mode <;> simp [decode, decodeAt, h, operandOf, Mode.operandBytes]

end Sys2Proof
end

