-- ==== Sys2Proof/Laws/Flags.lean ====
section
/-! SUPPORT. The status register: a flag after a flag is set, and each flag after each flag computation. -/

namespace Sys2Proof.Machine

@[simp] theorem getFlag_setFlag (sr : Byte) (f g : Flag) (on : Bool) :
    getFlag (setFlag f on sr) g = if g = f then on else getFlag sr g := by
  cases on <;> cases f <;> cases g <;> simp [getFlag, setFlag, Flag.bit, Flag.mask]

/-- Two status bytes with the same flags are equal. -/
theorem status_ext {p q : Byte} (h : ∀ f, getFlag p f = getFlag q f) : p = q := by
  ext i hi
  have hc := h .c; have hz := h .z; have hh := h .i; have hd := h .d
  have hb := h .b; have hu := h .u; have hv := h .v; have hn := h .n
  simp only [getFlag, Flag.bit, BitVec.getLsbD] at *
  simp only [BitVec.getElem_eq_testBit_toNat]
  have : i = 0 ∨ i = 1 ∨ i = 2 ∨ i = 3 ∨ i = 4 ∨ i = 5 ∨ i = 6 ∨ i = 7 := by omega
  rcases this with rfl | rfl | rfl | rfl | rfl | rfl | rfl | rfl <;> assumption

@[simp] theorem getFlag_setZN (v sr : Byte) (g : Flag) :
    getFlag (setZN v sr) g =
      match g with
      | .z => v == 0
      | .n => v.getLsbD 7
      | g => getFlag sr g := by
  cases g <;> simp [setZN]

@[simp] theorem getFlag_sumStatus (a w : Byte) (t : Addr) (sr : Byte) (g : Flag) :
    getFlag (sumStatus a w t sr) g =
      match g with
      | .c => t.getLsbD 8
      | .z => loByte t == 0
      | .v => (~~~(a ^^^ w) &&& (a ^^^ loByte t)).getLsbD 7
      | .n => t.getLsbD 7
      | g => getFlag sr g := by
  cases g <;> simp [sumStatus]

@[simp] theorem getFlag_bitStatus (a m sr : Byte) (g : Flag) :
    getFlag (bitStatus a m sr) g =
      match g with
      | .z => a &&& m == 0
      | .n => m.getLsbD 7
      | .v => m.getLsbD 6
      | g => getFlag sr g := by
  cases g <;> simp [bitStatus]

@[simp] theorem getFlag_compareStatus (r m : Byte) (t : Addr) (sr : Byte) (g : Flag) :
    getFlag (compareStatus r m t sr) g =
      match g with
      | .c => decide (m ≤ r)
      | .z => loByte t == 0
      | .n => t.getLsbD 7
      | g => getFlag sr g := by
  cases g <;> simp [compareStatus]

@[simp] theorem getFlag_shiftStatus (out : Bool) (t : Addr) (sr : Byte) (g : Flag) :
    getFlag (shiftStatus out t sr) g =
      match g with
      | .c => out
      | .z => loByte t == 0
      | .n => t.getLsbD 7
      | g => getFlag sr g := by
  cases g <;> simp [shiftStatus]

@[simp] theorem getFlag_phpCopy (sr : Byte) (g : Flag) :
    getFlag (phpCopy sr) g = if g = .b then true else if g = .u then true else getFlag sr g := by
  cases g <;> simp [phpCopy, getFlag, Flag.bit]

@[simp] theorem getFlag_plpStatus (v : Byte) (g : Flag) :
    getFlag (plpStatus v) g = if g = .u then true else getFlag v g := by
  cases g <;> simp [plpStatus, getFlag, Flag.bit]

@[simp] theorem getFlag_rtiStatus (v : Byte) (g : Flag) :
    getFlag (rtiStatus v) g = if g = .b then false else if g = .u then true else getFlag v g := by
  cases g <;> simp [rtiStatus, getFlag, Flag.bit]

@[simp] theorem getFlag_interruptCopy (sr : Byte) (g : Flag) :
    getFlag (interruptCopy sr) g = if g = .b then false else if g = .u then true else getFlag sr g :=
  getFlag_rtiStatus sr g

@[simp] theorem getFlag_interruptStatus (sr : Byte) (g : Flag) :
    getFlag (interruptStatus sr) g =
      if g = .b then false else if g = .u then true else if g = .i then true else getFlag sr g := by
  cases g <;> simp [interruptStatus]

@[simp] theorem getFlag_brkCopy (sr : Byte) (g : Flag) :
    getFlag (brkCopy sr) g = if g = .b then true else if g = .i then true else getFlag sr g := by
  cases g <;> simp [brkCopy]

@[simp] theorem getFlag_brkStatus (sr : Byte) (g : Flag) :
    getFlag (brkStatus sr) g = if g = .b then false else if g = .i then true else getFlag sr g := by
  cases g <;> simp [brkStatus]

end Sys2Proof.Machine
end

