-- ==== Sys2Proof/Laws/Memory.lean ====
section
/-! SUPPORT. The laws of the bus (20_memory.md R62): a read after a write, and that every memory operation keeps the
canonical form. -/

namespace Sys2Proof.Machine

namespace Memory

theorem byteAt_below {m : Memory} {lo a : Nat} (h : wfFrom lo m = true) (ha : a < lo) : byteAt m a = unlisted := by
  induction m generalizing lo with
  | nil => rfl
  | cons p rest ih =>
    obtain ⟨k, v⟩ := p
    simp only [wfFrom, Bool.and_eq_true, decide_eq_true_eq] at h
    have : k ≠ a := by omega
    simp only [byteAt, this, if_false]
    exact ih h.2 (by omega)

theorem wfFrom_mono {m : Memory} {lo lo' : Nat} (h : wfFrom lo m = true) (hl : lo' ≤ lo) : wfFrom lo' m = true := by
  cases m with
  | nil => rfl
  | cons p rest =>
    simp only [wfFrom, Bool.and_eq_true, decide_eq_true_eq] at h ⊢
    exact ⟨⟨⟨by omega, h.1.1.2⟩, h.1.2⟩, h.2⟩

theorem byteAt_cell {rest : Memory} {a : Nat} (v : Byte) (h : wfFrom (a + 1) rest = true) (b : Nat) :
    byteAt (cell a v rest) b = if b = a then v else byteAt rest b := by
  unfold cell
  split
  · rename_i hv
    split
    · rename_i hb; rw [hb, hv]; exact byteAt_below h (by omega)
    · rfl
  · simp only [byteAt]
    by_cases hb : b = a
    · simp [hb]
    · simp [hb, Ne.symm hb]

theorem wfFrom_cell {rest : Memory} {lo a : Nat} (v : Byte) (hl : lo ≤ a) (ha : a < 65536)
    (h : wfFrom (a + 1) rest = true) : wfFrom lo (cell a v rest) = true := by
  unfold cell
  split
  · exact wfFrom_mono h (by omega)
  · simp only [wfFrom, Bool.and_eq_true, decide_eq_true_eq]
    exact ⟨⟨⟨hl, ha⟩, by assumption⟩, h⟩

theorem wfFrom_put {m : Memory} {lo a : Nat} (v : Byte) (h : wfFrom lo m = true) (hl : lo ≤ a) (ha : a < 65536) :
    wfFrom lo (put m a v) = true := by
  induction m generalizing lo with
  | nil => exact wfFrom_cell v hl ha rfl
  | cons p rest ih =>
    obtain ⟨k, w⟩ := p
    have hk := h
    simp only [wfFrom, Bool.and_eq_true, decide_eq_true_eq] at hk
    simp only [put]
    split
    · refine wfFrom_cell v hl ha ?_
      simp only [wfFrom, Bool.and_eq_true, decide_eq_true_eq]
      exact ⟨⟨⟨by omega, hk.1.1.2⟩, hk.1.2⟩, hk.2⟩
    · split
      · exact wfFrom_cell v hl ha (by rename_i h2; rw [h2]; exact hk.2)
      · simp only [wfFrom, Bool.and_eq_true, decide_eq_true_eq]
        exact ⟨hk.1, ih hk.2 (by omega)⟩

theorem byteAt_put {m : Memory} {lo : Nat} (a : Nat) (v : Byte) (h : wfFrom lo m = true) (b : Nat) :
    byteAt (put m a v) b = if b = a then v else byteAt m b := by
  induction m generalizing lo with
  | nil => exact byteAt_cell v rfl b
  | cons p rest ih =>
    obtain ⟨k, w⟩ := p
    have hk := h
    simp only [wfFrom, Bool.and_eq_true, decide_eq_true_eq] at hk
    simp only [put]
    split
    · refine byteAt_cell v ?_ b
      simp only [wfFrom, Bool.and_eq_true, decide_eq_true_eq]
      exact ⟨⟨⟨by omega, hk.1.1.2⟩, hk.1.2⟩, hk.2⟩
    · split
      · rename_i h2
        rw [byteAt_cell v (by rw [h2]; exact hk.2) b]
        by_cases hb : b = a
        · simp [hb]
        · simp [hb, byteAt]; intro h3; omega
      · simp only [byteAt, ih hk.2]
        by_cases hb : k = b
        · simp [hb]; intro h3; omega
        · simp [hb]

/-- A read after a write: the value written at the same address, the old byte anywhere else (R62). -/
theorem read_write {m : Memory} (h : m.wf = true) (a : Addr) (v : Byte) (b : Addr) :
    (m.write a v).read b = if b = a then v else m.read b := by
  simp only [read, write, byteAt_put _ _ h, BitVec.toNat_inj]

/-- A write keeps the canonical form. -/
theorem wf_write {m : Memory} (h : m.wf = true) (a : Addr) (v : Byte) : (m.write a v).wf = true :=
  wfFrom_put v h (Nat.zero_le _) a.isLt

@[simp] theorem read_nil (a : Addr) : read [] a = unlisted := rfl

@[simp] theorem wf_nil : wf [] = true := rfl

end Memory

end Sys2Proof.Machine
end

