-- ==== Sys2Proof/Laws/State.lean ====
section
/-! SUPPORT. One lemma per field per setter, so that no later proof unfolds a record update. -/

namespace Sys2Proof.Machine

namespace State

variable (s : State)

/-! `setA` -/

@[simp] theorem setA_a (v : Byte) : (s.setA v).a = v := rfl
@[simp] theorem setA_x (v : Byte) : (s.setA v).x = s.x := rfl
@[simp] theorem setA_y (v : Byte) : (s.setA v).y = s.y := rfl
@[simp] theorem setA_pc (v : Byte) : (s.setA v).pc = s.pc := rfl
@[simp] theorem setA_sp (v : Byte) : (s.setA v).sp = s.sp := rfl
@[simp] theorem setA_sr (v : Byte) : (s.setA v).sr = s.sr := rfl
@[simp] theorem setA_fetched (v : Byte) : (s.setA v).fetched = s.fetched := rfl
@[simp] theorem setA_temp (v : Byte) : (s.setA v).temp = s.temp := rfl
@[simp] theorem setA_addrAbs (v : Byte) : (s.setA v).addrAbs = s.addrAbs := rfl
@[simp] theorem setA_addrRel (v : Byte) : (s.setA v).addrRel = s.addrRel := rfl
@[simp] theorem setA_opcode (v : Byte) : (s.setA v).opcode = s.opcode := rfl
@[simp] theorem setA_cycles (v : Byte) : (s.setA v).cycles = s.cycles := rfl
@[simp] theorem setA_mem (v : Byte) : (s.setA v).mem = s.mem := rfl
@[simp] theorem setA_cfg (v : Byte) : (s.setA v).cfg = s.cfg := rfl
@[simp] theorem setA_driver (v : Byte) : (s.setA v).driver = s.driver := rfl

/-! `setX` -/

@[simp] theorem setX_a (v : Byte) : (s.setX v).a = s.a := rfl
@[simp] theorem setX_x (v : Byte) : (s.setX v).x = v := rfl
@[simp] theorem setX_y (v : Byte) : (s.setX v).y = s.y := rfl
@[simp] theorem setX_pc (v : Byte) : (s.setX v).pc = s.pc := rfl
@[simp] theorem setX_sp (v : Byte) : (s.setX v).sp = s.sp := rfl
@[simp] theorem setX_sr (v : Byte) : (s.setX v).sr = s.sr := rfl
@[simp] theorem setX_fetched (v : Byte) : (s.setX v).fetched = s.fetched := rfl
@[simp] theorem setX_temp (v : Byte) : (s.setX v).temp = s.temp := rfl
@[simp] theorem setX_addrAbs (v : Byte) : (s.setX v).addrAbs = s.addrAbs := rfl
@[simp] theorem setX_addrRel (v : Byte) : (s.setX v).addrRel = s.addrRel := rfl
@[simp] theorem setX_opcode (v : Byte) : (s.setX v).opcode = s.opcode := rfl
@[simp] theorem setX_cycles (v : Byte) : (s.setX v).cycles = s.cycles := rfl
@[simp] theorem setX_mem (v : Byte) : (s.setX v).mem = s.mem := rfl
@[simp] theorem setX_cfg (v : Byte) : (s.setX v).cfg = s.cfg := rfl
@[simp] theorem setX_driver (v : Byte) : (s.setX v).driver = s.driver := rfl

/-! `setY` -/

@[simp] theorem setY_a (v : Byte) : (s.setY v).a = s.a := rfl
@[simp] theorem setY_x (v : Byte) : (s.setY v).x = s.x := rfl
@[simp] theorem setY_y (v : Byte) : (s.setY v).y = v := rfl
@[simp] theorem setY_pc (v : Byte) : (s.setY v).pc = s.pc := rfl
@[simp] theorem setY_sp (v : Byte) : (s.setY v).sp = s.sp := rfl
@[simp] theorem setY_sr (v : Byte) : (s.setY v).sr = s.sr := rfl
@[simp] theorem setY_fetched (v : Byte) : (s.setY v).fetched = s.fetched := rfl
@[simp] theorem setY_temp (v : Byte) : (s.setY v).temp = s.temp := rfl
@[simp] theorem setY_addrAbs (v : Byte) : (s.setY v).addrAbs = s.addrAbs := rfl
@[simp] theorem setY_addrRel (v : Byte) : (s.setY v).addrRel = s.addrRel := rfl
@[simp] theorem setY_opcode (v : Byte) : (s.setY v).opcode = s.opcode := rfl
@[simp] theorem setY_cycles (v : Byte) : (s.setY v).cycles = s.cycles := rfl
@[simp] theorem setY_mem (v : Byte) : (s.setY v).mem = s.mem := rfl
@[simp] theorem setY_cfg (v : Byte) : (s.setY v).cfg = s.cfg := rfl
@[simp] theorem setY_driver (v : Byte) : (s.setY v).driver = s.driver := rfl

/-! `setPc` -/

@[simp] theorem setPc_a (v : Addr) : (s.setPc v).a = s.a := rfl
@[simp] theorem setPc_x (v : Addr) : (s.setPc v).x = s.x := rfl
@[simp] theorem setPc_y (v : Addr) : (s.setPc v).y = s.y := rfl
@[simp] theorem setPc_pc (v : Addr) : (s.setPc v).pc = v := rfl
@[simp] theorem setPc_sp (v : Addr) : (s.setPc v).sp = s.sp := rfl
@[simp] theorem setPc_sr (v : Addr) : (s.setPc v).sr = s.sr := rfl
@[simp] theorem setPc_fetched (v : Addr) : (s.setPc v).fetched = s.fetched := rfl
@[simp] theorem setPc_temp (v : Addr) : (s.setPc v).temp = s.temp := rfl
@[simp] theorem setPc_addrAbs (v : Addr) : (s.setPc v).addrAbs = s.addrAbs := rfl
@[simp] theorem setPc_addrRel (v : Addr) : (s.setPc v).addrRel = s.addrRel := rfl
@[simp] theorem setPc_opcode (v : Addr) : (s.setPc v).opcode = s.opcode := rfl
@[simp] theorem setPc_cycles (v : Addr) : (s.setPc v).cycles = s.cycles := rfl
@[simp] theorem setPc_mem (v : Addr) : (s.setPc v).mem = s.mem := rfl
@[simp] theorem setPc_cfg (v : Addr) : (s.setPc v).cfg = s.cfg := rfl
@[simp] theorem setPc_driver (v : Addr) : (s.setPc v).driver = s.driver := rfl

/-! `setSp` -/

@[simp] theorem setSp_a (v : Byte) : (s.setSp v).a = s.a := rfl
@[simp] theorem setSp_x (v : Byte) : (s.setSp v).x = s.x := rfl
@[simp] theorem setSp_y (v : Byte) : (s.setSp v).y = s.y := rfl
@[simp] theorem setSp_pc (v : Byte) : (s.setSp v).pc = s.pc := rfl
@[simp] theorem setSp_sp (v : Byte) : (s.setSp v).sp = v := rfl
@[simp] theorem setSp_sr (v : Byte) : (s.setSp v).sr = s.sr := rfl
@[simp] theorem setSp_fetched (v : Byte) : (s.setSp v).fetched = s.fetched := rfl
@[simp] theorem setSp_temp (v : Byte) : (s.setSp v).temp = s.temp := rfl
@[simp] theorem setSp_addrAbs (v : Byte) : (s.setSp v).addrAbs = s.addrAbs := rfl
@[simp] theorem setSp_addrRel (v : Byte) : (s.setSp v).addrRel = s.addrRel := rfl
@[simp] theorem setSp_opcode (v : Byte) : (s.setSp v).opcode = s.opcode := rfl
@[simp] theorem setSp_cycles (v : Byte) : (s.setSp v).cycles = s.cycles := rfl
@[simp] theorem setSp_mem (v : Byte) : (s.setSp v).mem = s.mem := rfl
@[simp] theorem setSp_cfg (v : Byte) : (s.setSp v).cfg = s.cfg := rfl
@[simp] theorem setSp_driver (v : Byte) : (s.setSp v).driver = s.driver := rfl

/-! `setSr` -/

@[simp] theorem setSr_a (v : Byte) : (s.setSr v).a = s.a := rfl
@[simp] theorem setSr_x (v : Byte) : (s.setSr v).x = s.x := rfl
@[simp] theorem setSr_y (v : Byte) : (s.setSr v).y = s.y := rfl
@[simp] theorem setSr_pc (v : Byte) : (s.setSr v).pc = s.pc := rfl
@[simp] theorem setSr_sp (v : Byte) : (s.setSr v).sp = s.sp := rfl
@[simp] theorem setSr_sr (v : Byte) : (s.setSr v).sr = v := rfl
@[simp] theorem setSr_fetched (v : Byte) : (s.setSr v).fetched = s.fetched := rfl
@[simp] theorem setSr_temp (v : Byte) : (s.setSr v).temp = s.temp := rfl
@[simp] theorem setSr_addrAbs (v : Byte) : (s.setSr v).addrAbs = s.addrAbs := rfl
@[simp] theorem setSr_addrRel (v : Byte) : (s.setSr v).addrRel = s.addrRel := rfl
@[simp] theorem setSr_opcode (v : Byte) : (s.setSr v).opcode = s.opcode := rfl
@[simp] theorem setSr_cycles (v : Byte) : (s.setSr v).cycles = s.cycles := rfl
@[simp] theorem setSr_mem (v : Byte) : (s.setSr v).mem = s.mem := rfl
@[simp] theorem setSr_cfg (v : Byte) : (s.setSr v).cfg = s.cfg := rfl
@[simp] theorem setSr_driver (v : Byte) : (s.setSr v).driver = s.driver := rfl

/-! `setFetched` -/

@[simp] theorem setFetched_a (v : Byte) : (s.setFetched v).a = s.a := rfl
@[simp] theorem setFetched_x (v : Byte) : (s.setFetched v).x = s.x := rfl
@[simp] theorem setFetched_y (v : Byte) : (s.setFetched v).y = s.y := rfl
@[simp] theorem setFetched_pc (v : Byte) : (s.setFetched v).pc = s.pc := rfl
@[simp] theorem setFetched_sp (v : Byte) : (s.setFetched v).sp = s.sp := rfl
@[simp] theorem setFetched_sr (v : Byte) : (s.setFetched v).sr = s.sr := rfl
@[simp] theorem setFetched_fetched (v : Byte) : (s.setFetched v).fetched = v := rfl
@[simp] theorem setFetched_temp (v : Byte) : (s.setFetched v).temp = s.temp := rfl
@[simp] theorem setFetched_addrAbs (v : Byte) : (s.setFetched v).addrAbs = s.addrAbs := rfl
@[simp] theorem setFetched_addrRel (v : Byte) : (s.setFetched v).addrRel = s.addrRel := rfl
@[simp] theorem setFetched_opcode (v : Byte) : (s.setFetched v).opcode = s.opcode := rfl
@[simp] theorem setFetched_cycles (v : Byte) : (s.setFetched v).cycles = s.cycles := rfl
@[simp] theorem setFetched_mem (v : Byte) : (s.setFetched v).mem = s.mem := rfl
@[simp] theorem setFetched_cfg (v : Byte) : (s.setFetched v).cfg = s.cfg := rfl
@[simp] theorem setFetched_driver (v : Byte) : (s.setFetched v).driver = s.driver := rfl

/-! `setTemp` -/

@[simp] theorem setTemp_a (v : Addr) : (s.setTemp v).a = s.a := rfl
@[simp] theorem setTemp_x (v : Addr) : (s.setTemp v).x = s.x := rfl
@[simp] theorem setTemp_y (v : Addr) : (s.setTemp v).y = s.y := rfl
@[simp] theorem setTemp_pc (v : Addr) : (s.setTemp v).pc = s.pc := rfl
@[simp] theorem setTemp_sp (v : Addr) : (s.setTemp v).sp = s.sp := rfl
@[simp] theorem setTemp_sr (v : Addr) : (s.setTemp v).sr = s.sr := rfl
@[simp] theorem setTemp_fetched (v : Addr) : (s.setTemp v).fetched = s.fetched := rfl
@[simp] theorem setTemp_temp (v : Addr) : (s.setTemp v).temp = v := rfl
@[simp] theorem setTemp_addrAbs (v : Addr) : (s.setTemp v).addrAbs = s.addrAbs := rfl
@[simp] theorem setTemp_addrRel (v : Addr) : (s.setTemp v).addrRel = s.addrRel := rfl
@[simp] theorem setTemp_opcode (v : Addr) : (s.setTemp v).opcode = s.opcode := rfl
@[simp] theorem setTemp_cycles (v : Addr) : (s.setTemp v).cycles = s.cycles := rfl
@[simp] theorem setTemp_mem (v : Addr) : (s.setTemp v).mem = s.mem := rfl
@[simp] theorem setTemp_cfg (v : Addr) : (s.setTemp v).cfg = s.cfg := rfl
@[simp] theorem setTemp_driver (v : Addr) : (s.setTemp v).driver = s.driver := rfl

/-! `setAddrAbs` -/

@[simp] theorem setAddrAbs_a (v : Addr) : (s.setAddrAbs v).a = s.a := rfl
@[simp] theorem setAddrAbs_x (v : Addr) : (s.setAddrAbs v).x = s.x := rfl
@[simp] theorem setAddrAbs_y (v : Addr) : (s.setAddrAbs v).y = s.y := rfl
@[simp] theorem setAddrAbs_pc (v : Addr) : (s.setAddrAbs v).pc = s.pc := rfl
@[simp] theorem setAddrAbs_sp (v : Addr) : (s.setAddrAbs v).sp = s.sp := rfl
@[simp] theorem setAddrAbs_sr (v : Addr) : (s.setAddrAbs v).sr = s.sr := rfl
@[simp] theorem setAddrAbs_fetched (v : Addr) : (s.setAddrAbs v).fetched = s.fetched := rfl
@[simp] theorem setAddrAbs_temp (v : Addr) : (s.setAddrAbs v).temp = s.temp := rfl
@[simp] theorem setAddrAbs_addrAbs (v : Addr) : (s.setAddrAbs v).addrAbs = v := rfl
@[simp] theorem setAddrAbs_addrRel (v : Addr) : (s.setAddrAbs v).addrRel = s.addrRel := rfl
@[simp] theorem setAddrAbs_opcode (v : Addr) : (s.setAddrAbs v).opcode = s.opcode := rfl
@[simp] theorem setAddrAbs_cycles (v : Addr) : (s.setAddrAbs v).cycles = s.cycles := rfl
@[simp] theorem setAddrAbs_mem (v : Addr) : (s.setAddrAbs v).mem = s.mem := rfl
@[simp] theorem setAddrAbs_cfg (v : Addr) : (s.setAddrAbs v).cfg = s.cfg := rfl
@[simp] theorem setAddrAbs_driver (v : Addr) : (s.setAddrAbs v).driver = s.driver := rfl

/-! `setAddrRel` -/

@[simp] theorem setAddrRel_a (v : Addr) : (s.setAddrRel v).a = s.a := rfl
@[simp] theorem setAddrRel_x (v : Addr) : (s.setAddrRel v).x = s.x := rfl
@[simp] theorem setAddrRel_y (v : Addr) : (s.setAddrRel v).y = s.y := rfl
@[simp] theorem setAddrRel_pc (v : Addr) : (s.setAddrRel v).pc = s.pc := rfl
@[simp] theorem setAddrRel_sp (v : Addr) : (s.setAddrRel v).sp = s.sp := rfl
@[simp] theorem setAddrRel_sr (v : Addr) : (s.setAddrRel v).sr = s.sr := rfl
@[simp] theorem setAddrRel_fetched (v : Addr) : (s.setAddrRel v).fetched = s.fetched := rfl
@[simp] theorem setAddrRel_temp (v : Addr) : (s.setAddrRel v).temp = s.temp := rfl
@[simp] theorem setAddrRel_addrAbs (v : Addr) : (s.setAddrRel v).addrAbs = s.addrAbs := rfl
@[simp] theorem setAddrRel_addrRel (v : Addr) : (s.setAddrRel v).addrRel = v := rfl
@[simp] theorem setAddrRel_opcode (v : Addr) : (s.setAddrRel v).opcode = s.opcode := rfl
@[simp] theorem setAddrRel_cycles (v : Addr) : (s.setAddrRel v).cycles = s.cycles := rfl
@[simp] theorem setAddrRel_mem (v : Addr) : (s.setAddrRel v).mem = s.mem := rfl
@[simp] theorem setAddrRel_cfg (v : Addr) : (s.setAddrRel v).cfg = s.cfg := rfl
@[simp] theorem setAddrRel_driver (v : Addr) : (s.setAddrRel v).driver = s.driver := rfl

/-! `setOpcode` -/

@[simp] theorem setOpcode_a (v : Byte) : (s.setOpcode v).a = s.a := rfl
@[simp] theorem setOpcode_x (v : Byte) : (s.setOpcode v).x = s.x := rfl
@[simp] theorem setOpcode_y (v : Byte) : (s.setOpcode v).y = s.y := rfl
@[simp] theorem setOpcode_pc (v : Byte) : (s.setOpcode v).pc = s.pc := rfl
@[simp] theorem setOpcode_sp (v : Byte) : (s.setOpcode v).sp = s.sp := rfl
@[simp] theorem setOpcode_sr (v : Byte) : (s.setOpcode v).sr = s.sr := rfl
@[simp] theorem setOpcode_fetched (v : Byte) : (s.setOpcode v).fetched = s.fetched := rfl
@[simp] theorem setOpcode_temp (v : Byte) : (s.setOpcode v).temp = s.temp := rfl
@[simp] theorem setOpcode_addrAbs (v : Byte) : (s.setOpcode v).addrAbs = s.addrAbs := rfl
@[simp] theorem setOpcode_addrRel (v : Byte) : (s.setOpcode v).addrRel = s.addrRel := rfl
@[simp] theorem setOpcode_opcode (v : Byte) : (s.setOpcode v).opcode = v := rfl
@[simp] theorem setOpcode_cycles (v : Byte) : (s.setOpcode v).cycles = s.cycles := rfl
@[simp] theorem setOpcode_mem (v : Byte) : (s.setOpcode v).mem = s.mem := rfl
@[simp] theorem setOpcode_cfg (v : Byte) : (s.setOpcode v).cfg = s.cfg := rfl
@[simp] theorem setOpcode_driver (v : Byte) : (s.setOpcode v).driver = s.driver := rfl

/-! `setCycles` -/

@[simp] theorem setCycles_a (v : Byte) : (s.setCycles v).a = s.a := rfl
@[simp] theorem setCycles_x (v : Byte) : (s.setCycles v).x = s.x := rfl
@[simp] theorem setCycles_y (v : Byte) : (s.setCycles v).y = s.y := rfl
@[simp] theorem setCycles_pc (v : Byte) : (s.setCycles v).pc = s.pc := rfl
@[simp] theorem setCycles_sp (v : Byte) : (s.setCycles v).sp = s.sp := rfl
@[simp] theorem setCycles_sr (v : Byte) : (s.setCycles v).sr = s.sr := rfl
@[simp] theorem setCycles_fetched (v : Byte) : (s.setCycles v).fetched = s.fetched := rfl
@[simp] theorem setCycles_temp (v : Byte) : (s.setCycles v).temp = s.temp := rfl
@[simp] theorem setCycles_addrAbs (v : Byte) : (s.setCycles v).addrAbs = s.addrAbs := rfl
@[simp] theorem setCycles_addrRel (v : Byte) : (s.setCycles v).addrRel = s.addrRel := rfl
@[simp] theorem setCycles_opcode (v : Byte) : (s.setCycles v).opcode = s.opcode := rfl
@[simp] theorem setCycles_cycles (v : Byte) : (s.setCycles v).cycles = v := rfl
@[simp] theorem setCycles_mem (v : Byte) : (s.setCycles v).mem = s.mem := rfl
@[simp] theorem setCycles_cfg (v : Byte) : (s.setCycles v).cfg = s.cfg := rfl
@[simp] theorem setCycles_driver (v : Byte) : (s.setCycles v).driver = s.driver := rfl

/-! `setMem` -/

@[simp] theorem setMem_a (v : Memory) : (s.setMem v).a = s.a := rfl
@[simp] theorem setMem_x (v : Memory) : (s.setMem v).x = s.x := rfl
@[simp] theorem setMem_y (v : Memory) : (s.setMem v).y = s.y := rfl
@[simp] theorem setMem_pc (v : Memory) : (s.setMem v).pc = s.pc := rfl
@[simp] theorem setMem_sp (v : Memory) : (s.setMem v).sp = s.sp := rfl
@[simp] theorem setMem_sr (v : Memory) : (s.setMem v).sr = s.sr := rfl
@[simp] theorem setMem_fetched (v : Memory) : (s.setMem v).fetched = s.fetched := rfl
@[simp] theorem setMem_temp (v : Memory) : (s.setMem v).temp = s.temp := rfl
@[simp] theorem setMem_addrAbs (v : Memory) : (s.setMem v).addrAbs = s.addrAbs := rfl
@[simp] theorem setMem_addrRel (v : Memory) : (s.setMem v).addrRel = s.addrRel := rfl
@[simp] theorem setMem_opcode (v : Memory) : (s.setMem v).opcode = s.opcode := rfl
@[simp] theorem setMem_cycles (v : Memory) : (s.setMem v).cycles = s.cycles := rfl
@[simp] theorem setMem_mem (v : Memory) : (s.setMem v).mem = v := rfl
@[simp] theorem setMem_cfg (v : Memory) : (s.setMem v).cfg = s.cfg := rfl
@[simp] theorem setMem_driver (v : Memory) : (s.setMem v).driver = s.driver := rfl

/-! `setDriver` -/

@[simp] theorem setDriver_a (v : List DriverCall) : (s.setDriver v).a = s.a := rfl
@[simp] theorem setDriver_x (v : List DriverCall) : (s.setDriver v).x = s.x := rfl
@[simp] theorem setDriver_y (v : List DriverCall) : (s.setDriver v).y = s.y := rfl
@[simp] theorem setDriver_pc (v : List DriverCall) : (s.setDriver v).pc = s.pc := rfl
@[simp] theorem setDriver_sp (v : List DriverCall) : (s.setDriver v).sp = s.sp := rfl
@[simp] theorem setDriver_sr (v : List DriverCall) : (s.setDriver v).sr = s.sr := rfl
@[simp] theorem setDriver_fetched (v : List DriverCall) : (s.setDriver v).fetched = s.fetched := rfl
@[simp] theorem setDriver_temp (v : List DriverCall) : (s.setDriver v).temp = s.temp := rfl
@[simp] theorem setDriver_addrAbs (v : List DriverCall) : (s.setDriver v).addrAbs = s.addrAbs := rfl
@[simp] theorem setDriver_addrRel (v : List DriverCall) : (s.setDriver v).addrRel = s.addrRel := rfl
@[simp] theorem setDriver_opcode (v : List DriverCall) : (s.setDriver v).opcode = s.opcode := rfl
@[simp] theorem setDriver_cycles (v : List DriverCall) : (s.setDriver v).cycles = s.cycles := rfl
@[simp] theorem setDriver_mem (v : List DriverCall) : (s.setDriver v).mem = s.mem := rfl
@[simp] theorem setDriver_cfg (v : List DriverCall) : (s.setDriver v).cfg = s.cfg := rfl
@[simp] theorem setDriver_driver (v : List DriverCall) : (s.setDriver v).driver = v := rfl

/-! Reads and writes through the bus -/

@[simp] theorem store_mem (a : Addr) (v : Byte) : (s.store a v).mem = s.mem.write a v := rfl
@[simp] theorem store_a (a : Addr) (v : Byte) : (s.store a v).a = s.a := rfl
@[simp] theorem store_x (a : Addr) (v : Byte) : (s.store a v).x = s.x := rfl
@[simp] theorem store_y (a : Addr) (v : Byte) : (s.store a v).y = s.y := rfl
@[simp] theorem store_pc (a : Addr) (v : Byte) : (s.store a v).pc = s.pc := rfl
@[simp] theorem store_sp (a : Addr) (v : Byte) : (s.store a v).sp = s.sp := rfl
@[simp] theorem store_sr (a : Addr) (v : Byte) : (s.store a v).sr = s.sr := rfl
@[simp] theorem store_fetched (a : Addr) (v : Byte) : (s.store a v).fetched = s.fetched := rfl
@[simp] theorem store_temp (a : Addr) (v : Byte) : (s.store a v).temp = s.temp := rfl
@[simp] theorem store_addrAbs (a : Addr) (v : Byte) : (s.store a v).addrAbs = s.addrAbs := rfl
@[simp] theorem store_addrRel (a : Addr) (v : Byte) : (s.store a v).addrRel = s.addrRel := rfl
@[simp] theorem store_opcode (a : Addr) (v : Byte) : (s.store a v).opcode = s.opcode := rfl
@[simp] theorem store_cycles (a : Addr) (v : Byte) : (s.store a v).cycles = s.cycles := rfl
@[simp] theorem store_cfg (a : Addr) (v : Byte) : (s.store a v).cfg = s.cfg := rfl
@[simp] theorem store_driver (a : Addr) (v : Byte) : (s.store a v).driver = s.driver := rfl
@[simp] theorem load_setA (v : Byte) (b : Addr) : (s.setA v).load b = s.load b := rfl
@[simp] theorem load_setX (v : Byte) (b : Addr) : (s.setX v).load b = s.load b := rfl
@[simp] theorem load_setY (v : Byte) (b : Addr) : (s.setY v).load b = s.load b := rfl
@[simp] theorem load_setPc (v : Addr) (b : Addr) : (s.setPc v).load b = s.load b := rfl
@[simp] theorem load_setSp (v : Byte) (b : Addr) : (s.setSp v).load b = s.load b := rfl
@[simp] theorem load_setSr (v : Byte) (b : Addr) : (s.setSr v).load b = s.load b := rfl
@[simp] theorem load_setFetched (v : Byte) (b : Addr) : (s.setFetched v).load b = s.load b := rfl
@[simp] theorem load_setTemp (v : Addr) (b : Addr) : (s.setTemp v).load b = s.load b := rfl
@[simp] theorem load_setAddrAbs (v : Addr) (b : Addr) : (s.setAddrAbs v).load b = s.load b := rfl
@[simp] theorem load_setAddrRel (v : Addr) (b : Addr) : (s.setAddrRel v).load b = s.load b := rfl
@[simp] theorem load_setOpcode (v : Byte) (b : Addr) : (s.setOpcode v).load b = s.load b := rfl
@[simp] theorem load_setCycles (v : Byte) (b : Addr) : (s.setCycles v).load b = s.load b := rfl
@[simp] theorem load_setDriver (v : List DriverCall) (b : Addr) : (s.setDriver v).load b = s.load b := rfl

end State

end Sys2Proof.Machine
end

