-- ==== Sys2Proof/Laws/Ops.lean ====
section
/-! SUPPORT. One lemma per shared operation of Machine/Ops.lean that says what it can do. -/

namespace Sys2Proof.Machine

/-- A read through the bus after a store (R62). -/
theorem load_store {s : State} (h : s.mem.wf = true) (a : Addr) (v : Byte) (b : Addr) :
    (s.store a v).load b = if b = a then v else s.load b :=
  Memory.read_write h a v b

theorem wf_store {s : State} (h : s.mem.wf = true) (a : Addr) (v : Byte) : (s.store a v).mem.wf = true :=
  Memory.wf_write h a v

theorem toNat_stackAddr (sp : Byte) : (stackAddr sp).toNat = 256 + sp.toNat := by
  have := sp.isLt
  simp only [stackAddr, BitVec.toNat_add, toNat_zext]
  show (256 + sp.toNat) % 65536 = _
  omega

/-- Different SP values designate different bytes (R25). -/
@[simp] theorem stackAddr_inj {p q : Byte} : stackAddr p = stackAddr q ↔ p = q := by
  refine ⟨fun h => ?_, fun h => h ▸ rfl⟩
  have := congrArg BitVec.toNat h
  rw [toNat_stackAddr, toNat_stackAddr] at this
  exact BitVec.eq_of_toNat_eq (by omega)

/-- No address at or above 0x0200 is a stack byte. -/
theorem ne_stackAddr {a : Addr} (h : 512 ≤ a.toNat) (sp : Byte) : a ≠ stackAddr sp := by
  intro e
  have := toNat_stackAddr sp
  have := sp.isLt
  rw [e] at h; omega

theorem push_eq (v : Byte) (s : State) :
    push v s = { s with mem := s.mem.write (stackAddr s.sp) v, sp := s.sp - 1 } := rfl

theorem wf_push {s : State} (h : s.mem.wf = true) (v : Byte) : (push v s).mem.wf = true :=
  Memory.wf_write h _ v

/-- A read after a push: the pushed byte where SP pointed, the old byte anywhere else (R70). -/
theorem load_push {s : State} (h : s.mem.wf = true) (v : Byte) (b : Addr) :
    (push v s).load b = if b = stackAddr s.sp then v else s.load b :=
  Memory.read_write h _ v b

theorem pushWord_eq (w : Addr) (s : State) :
    pushWord w s =
      { s with
        mem := (s.mem.write (stackAddr s.sp) (hiByte w)).write (stackAddr (s.sp - 1)) (loByte w)
        sp := s.sp - 1 - 1 } := rfl

theorem wf_pushWord {s : State} (h : s.mem.wf = true) (w : Addr) : (pushWord w s).mem.wf = true :=
  wf_push (wf_push h _) _

theorem load_pushWord {s : State} (h : s.mem.wf = true) (w : Addr) (b : Addr) :
    (pushWord w s).load b =
      if b = stackAddr (s.sp - 1) then loByte w else if b = stackAddr s.sp then hiByte w else s.load b := by
  rw [pushWord, load_push (wf_push h _), load_push h]; rfl

/-- Pushing `v` leaves `v` as the byte a pull returns, and the pull restores SP (R70). -/
theorem pulled_push {s : State} (h : s.mem.wf = true) (v : Byte) : pulled (push v s) = v := by
  have : (push v s).sp + 1 = s.sp := by simp [push]
  rw [pulled, this, load_push h, if_pos rfl]

@[simp] theorem pop_push_sp (s : State) (v : Byte) : (pop (push v s)).sp = s.sp := by
  simp [pop, push]

/-- What the interrupt entry does to each part of the state (R228, R303 to R306). -/
theorem enterInterrupt_eq (ret : Addr) (copy live : Byte) (vector : Addr) (s : State) :
    enterInterrupt ret copy live vector s =
      { s with
        mem := (push copy (pushWord ret s)).mem
        sp := s.sp - 1 - 1 - 1
        sr := live
        pc := (push copy (pushWord ret s)).readVector vector } := by
  simp only [enterInterrupt, State.readVector, State.load, State.setPc, State.setSr, push, pushWord, State.setSp,
    State.store, State.setMem]

@[simp] theorem enterInterrupt_mem (ret : Addr) (copy live : Byte) (vector : Addr) (s : State) :
    (enterInterrupt ret copy live vector s).mem = (push copy (pushWord ret s)).mem := rfl

theorem wf_enterInterrupt {s : State} (h : s.mem.wf = true) (ret : Addr) (copy live : Byte) (vector : Addr) :
    (enterInterrupt ret copy live vector s).mem.wf = true := by
  rw [enterInterrupt_mem]
  exact wf_push (wf_pushWord h _) _

/-- Every byte after an interrupt entry: the three stacked bytes, and the old byte anywhere else. -/
theorem load_enterInterrupt {s : State} (h : s.mem.wf = true) (ret : Addr) (copy live : Byte) (vector b : Addr) :
    (enterInterrupt ret copy live vector s).load b =
      if b = stackAddr (s.sp - 1 - 1) then copy
      else if b = stackAddr (s.sp - 1) then loByte ret
      else if b = stackAddr s.sp then hiByte ret
      else s.load b := by
  rw [State.load, enterInterrupt_mem, ← State.load, load_push (wf_pushWord h _), load_pushWord h]; rfl

/-- The vector is read outside the stack page, so the entry's own pushes do not change it (R71). -/
theorem enterInterrupt_pc {s : State} (h : s.mem.wf = true) (ret : Addr) (copy live : Byte) {vector : Addr}
    (hv : 512 ≤ vector.toNat) (hv' : 512 ≤ (vector + 1).toNat) :
    (enterInterrupt ret copy live vector s).pc = s.readVector vector := by
  rw [enterInterrupt_eq]
  simp only [State.readVector, load_push (wf_pushWord h _), load_pushWord h, ne_stackAddr hv, ne_stackAddr hv', if_false]

theorem returnFromInterrupt_eq (s : State) :
    returnFromInterrupt s =
      { s with
        sr := rtiStatus (s.load (stackAddr (s.sp + 1)))
        sp := s.sp + 1 + 1 + 1
        pc := concat (s.load (stackAddr (s.sp + 1 + 1 + 1))) (s.load (stackAddr (s.sp + 1 + 1))) } := rfl

end Sys2Proof.Machine
end

