-- ==== Sys2Proof/Laws/Operands.lean ====
section
/-! SUPPORT. The resolvers, `fetch()`, the write-back and the shared frame of an instruction: what each can do. -/

namespace Sys2Proof.Machine

/-! ## The resolver writes only PC, `addr_abs`, `addr_rel` and `fetched` (R152) -/

section
variable (m : Operand) (s : State)

@[simp] theorem resolve_a : (resolve m s).a = s.a := by cases m <;> rfl
@[simp] theorem resolve_x : (resolve m s).x = s.x := by cases m <;> rfl
@[simp] theorem resolve_y : (resolve m s).y = s.y := by cases m <;> rfl
@[simp] theorem resolve_sp : (resolve m s).sp = s.sp := by cases m <;> rfl
@[simp] theorem resolve_sr : (resolve m s).sr = s.sr := by cases m <;> rfl
@[simp] theorem resolve_temp : (resolve m s).temp = s.temp := by cases m <;> rfl
@[simp] theorem resolve_opcode : (resolve m s).opcode = s.opcode := by cases m <;> rfl
@[simp] theorem resolve_cycles : (resolve m s).cycles = s.cycles := by cases m <;> rfl
@[simp] theorem resolve_mem : (resolve m s).mem = s.mem := by cases m <;> rfl
@[simp] theorem resolve_cfg : (resolve m s).cfg = s.cfg := by cases m <;> rfl
@[simp] theorem resolve_driver : (resolve m s).driver = s.driver := by cases m <;> rfl
@[simp] theorem resolve_load (a : Addr) : (resolve m s).load a = s.load a := by cases m <;> rfl
@[simp] theorem resolve_flag (f : Flag) : (resolve m s).flag f = s.flag f := by cases m <;> rfl
@[simp] theorem resolve_addrAbs : (resolve m s).addrAbs = effectiveAddress m s := by cases m <;> rfl

@[simp] theorem resolve_pc : (resolve m s).pc = s.pc + BitVec.ofNat 16 m.mode.operandBytes := by
  cases m <;> first | rfl | simp [resolve, Operand.mode, Mode.operandBytes]

@[simp] theorem resolve_fetched : (resolve m s).fetched = if m.mode = .imp then s.a else s.fetched := by
  cases m <;> rfl

/-- A branch not taken leaves the state to its resolver (R200). -/
@[simp] theorem branchIf_false : branchIf false s = s := rfl

/-- The resolver of every mode but Relative, as one record. -/
theorem resolve_eq (h : m.mode ≠ .rel) (h' : m.mode ≠ .imp) : resolve m s = resolvedState m s := by
  cases m <;> first | rfl | exact absurd rfl h | exact absurd rfl h'

theorem resolve_imp : resolve .imp s = { s with fetched := s.a } := rfl

theorem resolve_rel (dd : Byte) : resolve (.rel dd) s = { s with pc := s.pc + 1, addrRel := sext dd } := rfl

/-! ## `fetch()` writes only `fetched` (R125) -/

theorem fetchOperand_eq : fetchOperand m s = s.setFetched (fetchOperand m s).fetched := by cases m <;> rfl

/-- Resolve and fetch, for every mode but Relative. -/
theorem fetchOperand_resolve (h : m.mode ≠ .rel) : fetchOperand m (resolve m s) = fetchedState m s := by
  cases m <;> first | rfl | exact absurd rfl h | simp [fetchedState, resolvedState, fetchOperand, resolve, operandValue,
    effectiveAddress, Operand.mode, Mode.operandBytes, State.setFetched]

/-- The value fetched, whatever the mode. -/
theorem fetchOperand_value : (fetchOperand m (resolve m s)).fetched = operandValue m s := by cases m <;> rfl

/-- The signal of the resolver is the carry into the high byte. -/
theorem pageCrossed_eq : pageCrossed m s = crossesPage m s := by
  have key : ∀ (w : Addr) (b : Byte),
      (hiByte (w + zext b) != hiByte w) = decide (256 ≤ w.toNat % 256 + b.toNat) := by
    intro w b
    have hb := b.isLt
    have hw := w.isLt
    have h1 : (hiByte (w + zext b)).toNat = (w.toNat + b.toNat) % 65536 / 256 := by
      rw [toNat_hiByte, BitVec.toNat_add, toNat_zext]
    have h2 := toNat_hiByte w
    by_cases h : 256 ≤ w.toNat % 256 + b.toNat
    · have : hiByte (w + zext b) ≠ hiByte w := fun e => by rw [e] at h1; omega
      simp [h, this]
    · have : hiByte (w + zext b) = hiByte w := BitVec.eq_of_toNat_eq (by omega)
      simp [h, this]
  cases m with
  | abx w => exact key w s.x
  | aby w => exact key w s.y
  | izy t =>
    have := key (concat (s.load (zext (t + 1))) (s.load (zext t))) s.y
    rw [hiByte_concat, toNat_concat] at this
    simp only [pageCrossed, crossesPage, effectiveAddress, this]
    congr 1
    have := (s.load (zext t)).isLt
    rw [eq_iff_iff]; omega
  | _ => rfl

end

/-! ## The shared frame -/

/-- `runSlot` always answers a next state: the operation on the resolved state, with the extra cycle (R123). -/
theorem runSlot_eq (m : Operand) (e2 : Bool) (op : State → State) (s : State) :
    runSlot m e2 op s = .next (addExtraCycle (crossesPage m s && e2) (op (resolve m s))) := by
  rw [runSlot, pageCrossed_eq]

theorem addExtraCycle_eq (extra : Bool) (s : State) :
    addExtraCycle extra s = { s with cycles := s.cycles + if extra then 1 else 0 } := by
  cases extra <;> simp [addExtraCycle, State.setCycles]

theorem runSlot_next (m : Operand) (e2 : Bool) (op : State → State) (s : State) :
    runSlot m e2 op s =
      .next { op (resolve m s) with
              cycles := (op (resolve m s)).cycles + if crossesPage m s && e2 then 1 else 0 } := by
  rw [runSlot_eq, addExtraCycle_eq]

/-- An instruction that hands its operand to `op`, for every mode but Relative. -/
theorem runSlot_withOperand {m : Operand} (h : m.mode ≠ .rel) (e2 : Bool) (op : Byte → State → State) (s : State) :
    runSlot m e2 (withOperand m op) s =
      .next { op (operandValue m s) (fetchedState m s) with
              cycles := (op (operandValue m s) (fetchedState m s)).cycles + if crossesPage m s && e2 then 1 else 0 } := by
  rw [runSlot_next, withOperand, fetchOperand_value, fetchOperand_resolve m s h]

/-- An Implied instruction with no operand of its own. -/
theorem runSlot_imp (e2 : Bool) (op : State → State) (s : State) :
    runSlot .imp e2 op s = .next (op { s with fetched := s.a }) := by
  cases e2 <;> rfl

/-- An illegal slot: its handler under the policy `nop`, a refusal under `refuse` (R272). -/
theorem illegalSlot_eq (slot : Byte) (handler : State → Host.Outcome State Fault Refusal) (s : State) :
    illegalSlot slot handler s =
      if s.cfg.illegalOpcodePolicy = .refuse then .refused (.illegalOpcode slot (s.pc - 1)) else handler s := by
  unfold illegalSlot
  cases s.cfg.illegalOpcodePolicy <;> rfl

end Sys2Proof.Machine
end

