-- ==== Sys2Proof/Laws/PerInstr.lean ====
section
/-! SUPPORT. A fact proved constructor by constructor: the encoding of a well-formed instruction has the length its mode
gives it (30_encoding.md R107). -/

namespace Sys2Proof.Laws.EncodedLength

/-- The bytes of a well-formed instruction are as many as R107 says. -/
def Statement (i : Instr) : Prop := i.wellFormed = true → (encode i).length = i.length

theorem of_opcode {i : Instr} (h : i.opcode?.isSome) : (encode i).length = i.length := by
  obtain ⟨op, hop⟩ := Option.isSome_iff_exists.mp h
  unfold encode Instr.length
  rw [hop]
  cases i.operand <;> rfl

theorem adc (m : Operand) : Statement (.adc m) := fun h => of_opcode (by cases m <;> first | rfl | exact absurd h Bool.false_ne_true)

theorem sbc (m : Operand) : Statement (.sbc m) := fun h => of_opcode (by cases m <;> first | rfl | exact absurd h Bool.false_ne_true)

theorem and (m : Operand) : Statement (.and m) := fun h => of_opcode (by cases m <;> first | rfl | exact absurd h Bool.false_ne_true)

theorem ora (m : Operand) : Statement (.ora m) := fun h => of_opcode (by cases m <;> first | rfl | exact absurd h Bool.false_ne_true)

theorem eor (m : Operand) : Statement (.eor m) := fun h => of_opcode (by cases m <;> first | rfl | exact absurd h Bool.false_ne_true)

theorem bit (m : Operand) : Statement (.bit m) := fun h => of_opcode (by cases m <;> first | rfl | exact absurd h Bool.false_ne_true)

theorem cmp (m : Operand) : Statement (.cmp m) := fun h => of_opcode (by cases m <;> first | rfl | exact absurd h Bool.false_ne_true)

theorem cpx (m : Operand) : Statement (.cpx m) := fun h => of_opcode (by cases m <;> first | rfl | exact absurd h Bool.false_ne_true)

theorem cpy (m : Operand) : Statement (.cpy m) := fun h => of_opcode (by cases m <;> first | rfl | exact absurd h Bool.false_ne_true)

theorem asl (m : Operand) : Statement (.asl m) := fun h => of_opcode (by cases m <;> first | rfl | exact absurd h Bool.false_ne_true)

theorem lsr (m : Operand) : Statement (.lsr m) := fun h => of_opcode (by cases m <;> first | rfl | exact absurd h Bool.false_ne_true)

theorem rol (m : Operand) : Statement (.rol m) := fun h => of_opcode (by cases m <;> first | rfl | exact absurd h Bool.false_ne_true)

theorem ror (m : Operand) : Statement (.ror m) := fun h => of_opcode (by cases m <;> first | rfl | exact absurd h Bool.false_ne_true)

theorem inc (m : Operand) : Statement (.inc m) := fun h => of_opcode (by cases m <;> first | rfl | exact absurd h Bool.false_ne_true)

theorem dec (m : Operand) : Statement (.dec m) := fun h => of_opcode (by cases m <;> first | rfl | exact absurd h Bool.false_ne_true)

theorem inx : Statement .inx := fun _ => rfl

theorem iny : Statement .iny := fun _ => rfl

theorem dex : Statement .dex := fun _ => rfl

theorem dey : Statement .dey := fun _ => rfl

theorem bcc (dd : Byte) : Statement (.bcc dd) := fun _ => rfl

theorem bcs (dd : Byte) : Statement (.bcs dd) := fun _ => rfl

theorem beq (dd : Byte) : Statement (.beq dd) := fun _ => rfl

theorem bmi (dd : Byte) : Statement (.bmi dd) := fun _ => rfl

theorem bne (dd : Byte) : Statement (.bne dd) := fun _ => rfl

theorem bpl (dd : Byte) : Statement (.bpl dd) := fun _ => rfl

theorem bvc (dd : Byte) : Statement (.bvc dd) := fun _ => rfl

theorem bvs (dd : Byte) : Statement (.bvs dd) := fun _ => rfl

theorem jmp (m : Operand) : Statement (.jmp m) := fun h => of_opcode (by cases m <;> first | rfl | exact absurd h Bool.false_ne_true)

theorem pha : Statement .pha := fun _ => rfl

theorem php : Statement .php := fun _ => rfl

theorem pla : Statement .pla := fun _ => rfl

theorem plp : Statement .plp := fun _ => rfl

theorem jsr (target : Addr) : Statement (.jsr target) := fun _ => rfl

theorem rts : Statement .rts := fun _ => rfl

theorem brk : Statement .brk := fun _ => rfl

theorem rti : Statement .rti := fun _ => rfl

theorem lda (m : Operand) : Statement (.lda m) := fun h => of_opcode (by cases m <;> first | rfl | exact absurd h Bool.false_ne_true)

theorem ldx (m : Operand) : Statement (.ldx m) := fun h => of_opcode (by cases m <;> first | rfl | exact absurd h Bool.false_ne_true)

theorem ldy (m : Operand) : Statement (.ldy m) := fun h => of_opcode (by cases m <;> first | rfl | exact absurd h Bool.false_ne_true)

theorem sta (m : Operand) : Statement (.sta m) := fun h => of_opcode (by cases m <;> first | rfl | exact absurd h Bool.false_ne_true)

theorem stx (m : Operand) : Statement (.stx m) := fun h => of_opcode (by cases m <;> first | rfl | exact absurd h Bool.false_ne_true)

theorem sty (m : Operand) : Statement (.sty m) := fun h => of_opcode (by cases m <;> first | rfl | exact absurd h Bool.false_ne_true)

theorem tax : Statement .tax := fun _ => rfl

theorem tay : Statement .tay := fun _ => rfl

theorem txa : Statement .txa := fun _ => rfl

theorem tya : Statement .tya := fun _ => rfl

theorem tsx : Statement .tsx := fun _ => rfl

theorem txs : Statement .txs := fun _ => rfl

theorem clc : Statement .clc := fun _ => rfl

theorem cld : Statement .cld := fun _ => rfl

theorem cli : Statement .cli := fun _ => rfl

theorem clv : Statement .clv := fun _ => rfl

theorem sec : Statement .sec := fun _ => rfl

theorem sed : Statement .sed := fun _ => rfl

theorem sei : Statement .sei := fun _ => rfl

theorem nop : Statement .nop := fun _ => rfl

theorem nopStar (slot : Byte) : Statement (.nopStar slot) := fun h => of_opcode (by
  have hs : nopStarSlots.contains slot = true := by simpa [Instr.wellFormed, Instr.slotOk, Instr.mnemonic, Instr.operand, Mnemonic.modes, Operand.mode] using h
  simp only [Instr.opcode?, hs, if_true, Option.isSome_some])

theorem ill (slot : Byte) : Statement (.ill slot) := fun h => of_opcode (by
  have hs : illSlots.contains slot = true := by simpa [Instr.wellFormed, Instr.slotOk, Instr.mnemonic, Instr.operand, Mnemonic.modes, Operand.mode] using h
  simp only [Instr.opcode?, hs, if_true, Option.isSome_some])

end Sys2Proof.Laws.EncodedLength
end

