-- ==== Sys2Proof/Laws/Step.lean ====
section
/-! SUPPORT. What a step can be: the driver's next call; and the parts of `clock()`. -/

namespace Sys2Proof.Machine

/-- With no script left a step is `clock()`. -/
theorem step_clock {s : State} (h : s.driver = []) : step s = clock s := by
  simp only [step, nextCall, h, drive]

/-- A scripted call is taken off the script and made. -/
theorem step_scripted {s : State} {call : DriverCall} {rest : List DriverCall} (h : s.driver = call :: rest) :
    step s = drive call (s.setDriver rest) := by
  simp only [step, nextCall, h]

theorem complete_iff (s : State) : s.complete = true ↔ s.cycles = 0 := by
  simp [State.complete]

/-- `clock()` between dispatches (R121). -/
theorem clock_idle {s : State} (h : s.cycles ≠ 0) : clock s = .next (countDown s) := by
  have : s.complete = false := by simpa [State.complete] using h
  simp [clock, this]

/-- `clock()` that dispatches (R120): each outcome of the dispatch. -/
theorem clock_dispatch {s : State} (h : s.cycles = 0) :
    clock s = match dispatch s with
      | .next t => .next (countDown t)
      | .fault r => .fault r
      | .refused r => .refused r :=
  if_pos ((complete_iff s).mpr h)

theorem afterFetch_eq (s : State) :
    afterFetch s =
      { s with opcode := s.load s.pc, pc := s.pc + 1, cycles := (descriptor (s.load s.pc)).base } := rfl

/-- The instruction at PC is the decoding of the three bytes there. -/
theorem decode_instrAt (s : State) :
    decode [s.load s.pc, s.load (s.pc + 1), s.load (s.pc + 2)] =
      .ok (instrAt s, [s.load (s.pc + 1), s.load (s.pc + 2)].drop (descriptor (s.load s.pc)).mode.operandBytes) :=
  decode_three ..

/-- The instruction at PC is well formed, whatever the bytes. -/
theorem instrAt_wellFormed (s : State) : (instrAt s).wellFormed = true := decodeAt_wellFormed ..

/-- `irq()` and `nmi()` case by case (R304, R305, R309). -/
theorem interruptCall_eq (call : InterruptCall) (s : State) :
    interruptCall call s =
      if s.cycles = 0 then
        if call = .irq then
          if s.flag .i then .next s else .next (interruptEntry irqVector s)
        else .next (interruptEntry nmiVector s)
      else .fault (.interruptMidInstruction call) := by
  cases call <;> by_cases h : s.cycles = 0 <;> simp [interruptCall, State.complete, h]

end Sys2Proof.Machine
end

