-- ==== Sys2Proof/Tests/Slice0.lean ====
section
/-! SUPPORT. The model's own tests: ill-formed terms refused, every table row decoded from its word, one step from the
vectors of 95_test_vectors.md, and for each obligation with hypotheses a witness that meets them. -/

open Sys2Proof Sys2Proof.Machine

/-- A small state between instructions: the stack and status that `reset()` leaves, PC in ordinary memory. -/
def small : State := { State.construct [] Config.default with sp := 0xFD, sr := 0x20, pc := 0x8000 }

/-- `small` with I set. -/
def masked : State := { small with sr := 0x24 }

/-- The bytes decode to the instruction, with nothing left over. -/
def decodesTo (bytes : List Byte) (j : Instr) : Bool :=
  match decode bytes with
  | .ok (i, []) => i == j
  | _ => false

/-- `s` with memory cells and, at PC, the instruction's bytes. -/
def withCells (s : State) (bytes : List Byte) (cells : List (Addr × Byte)) : State :=
  placeBytes bytes s.pc (cells.foldl (fun t c => t.store c.1 c.2) s)

/-- The outcome is a next state with the property. -/
def nextWith (o : Host.Outcome State Fault Refusal) (p : State → Bool) : Bool :=
  match o with
  | .next t => p t
  | _ => false

/-- One step from `s` with the bytes at PC gives a next state with the property, in a canonical memory. -/
def stepGives (s : State) (bytes : List Byte) (cells : List (Addr × Byte)) (p : State → Bool) : Bool :=
  nextWith (step (withCells s bytes cells)) fun t => t.mem.wf && p t

theorem next_of_nextWith {o : Host.Outcome State Fault Refusal} {p : State → Bool} (h : nextWith o p = true) :
    ∃ t, o = .next t ∧ p t = true := by
  cases o with
  | next t => exact ⟨t, rfl, h⟩
  | fault _ => cases h
  | refused _ => cases h

theorem completes {o : Host.Outcome State Fault Refusal} (h : nextWith o (fun _ => true) = true) : ∃ t, o = .next t :=
  (next_of_nextWith h).imp fun _ h => h.1

/-! ## Ill-formed terms -/

theorem test_wf_mode_of_store : (Instr.sta (.imm 0x10)).wellFormed = false := by decide

theorem test_wf_mode_of_adc : (Instr.adc .imp).wellFormed = false := by decide

theorem test_wf_mode_of_jmp : (Instr.jmp (.rel 0x10)).wellFormed = false := by decide

theorem test_wf_nopStar_slot : (Instr.nopStar 0xEA).wellFormed = false := by decide

theorem test_wf_ill_slot : (Instr.ill 0x04).wellFormed = false := by decide

theorem test_wf_not_encoded : encode (.sta (.imm 0x10)) = [] ∧ encode (.ill 0x04) = [] := by decide

theorem test_decode_rejects_no_bytes : decode [] = .error .noOpcode := by decide

theorem test_decode_rejects_truncated : decode [0xAD, 0x34] = .error (.truncated 0xAD) := by decide

/-! ## Decoding: every row of spec/opcode_table.json, its word written out (30_encoding.md R91, R101, R104, R105) -/

theorem test_decode_adc :
    (decodesTo [0x61, 0x8C] (.adc (.izx 0x8C)) && decodesTo [0x65, 0x8C] (.adc (.zp0 0x8C)) &&
    decodesTo [0x69, 0x8C] (.adc (.imm 0x8C)) && decodesTo [0x6D, 0x34, 0x92] (.adc (.abs 0x9234)) &&
    decodesTo [0x71, 0x8C] (.adc (.izy 0x8C)) && decodesTo [0x75, 0x8C] (.adc (.zpx 0x8C)) &&
    decodesTo [0x79, 0x34, 0x92] (.adc (.aby 0x9234)) && decodesTo [0x7D, 0x34, 0x92] (.adc (.abx 0x9234))) = true := by
  decide

theorem test_decode_sbc :
    (decodesTo [0xE1, 0x8C] (.sbc (.izx 0x8C)) && decodesTo [0xE5, 0x8C] (.sbc (.zp0 0x8C)) &&
    decodesTo [0xE9, 0x8C] (.sbc (.imm 0x8C)) && decodesTo [0xED, 0x34, 0x92] (.sbc (.abs 0x9234)) &&
    decodesTo [0xF1, 0x8C] (.sbc (.izy 0x8C)) && decodesTo [0xF5, 0x8C] (.sbc (.zpx 0x8C)) &&
    decodesTo [0xF9, 0x34, 0x92] (.sbc (.aby 0x9234)) && decodesTo [0xFD, 0x34, 0x92] (.sbc (.abx 0x9234))) = true := by
  decide

theorem test_decode_and :
    (decodesTo [0x21, 0x8C] (.and (.izx 0x8C)) && decodesTo [0x25, 0x8C] (.and (.zp0 0x8C)) &&
    decodesTo [0x29, 0x8C] (.and (.imm 0x8C)) && decodesTo [0x2D, 0x34, 0x92] (.and (.abs 0x9234)) &&
    decodesTo [0x31, 0x8C] (.and (.izy 0x8C)) && decodesTo [0x35, 0x8C] (.and (.zpx 0x8C)) &&
    decodesTo [0x39, 0x34, 0x92] (.and (.aby 0x9234)) && decodesTo [0x3D, 0x34, 0x92] (.and (.abx 0x9234))) = true := by
  decide

theorem test_decode_ora :
    (decodesTo [0x01, 0x8C] (.ora (.izx 0x8C)) && decodesTo [0x05, 0x8C] (.ora (.zp0 0x8C)) &&
    decodesTo [0x09, 0x8C] (.ora (.imm 0x8C)) && decodesTo [0x0D, 0x34, 0x92] (.ora (.abs 0x9234)) &&
    decodesTo [0x11, 0x8C] (.ora (.izy 0x8C)) && decodesTo [0x15, 0x8C] (.ora (.zpx 0x8C)) &&
    decodesTo [0x19, 0x34, 0x92] (.ora (.aby 0x9234)) && decodesTo [0x1D, 0x34, 0x92] (.ora (.abx 0x9234))) = true := by
  decide

theorem test_decode_eor_bit :
    (decodesTo [0x41, 0x8C] (.eor (.izx 0x8C)) && decodesTo [0x45, 0x8C] (.eor (.zp0 0x8C)) &&
    decodesTo [0x49, 0x8C] (.eor (.imm 0x8C)) && decodesTo [0x4D, 0x34, 0x92] (.eor (.abs 0x9234)) &&
    decodesTo [0x51, 0x8C] (.eor (.izy 0x8C)) && decodesTo [0x55, 0x8C] (.eor (.zpx 0x8C)) &&
    decodesTo [0x59, 0x34, 0x92] (.eor (.aby 0x9234)) && decodesTo [0x5D, 0x34, 0x92] (.eor (.abx 0x9234)) &&
    decodesTo [0x24, 0x8C] (.bit (.zp0 0x8C)) && decodesTo [0x2C, 0x34, 0x92] (.bit (.abs 0x9234))) = true := by
  decide

theorem test_decode_cmp_cpx :
    (decodesTo [0xC1, 0x8C] (.cmp (.izx 0x8C)) && decodesTo [0xC5, 0x8C] (.cmp (.zp0 0x8C)) &&
    decodesTo [0xC9, 0x8C] (.cmp (.imm 0x8C)) && decodesTo [0xCD, 0x34, 0x92] (.cmp (.abs 0x9234)) &&
    decodesTo [0xD1, 0x8C] (.cmp (.izy 0x8C)) && decodesTo [0xD5, 0x8C] (.cmp (.zpx 0x8C)) &&
    decodesTo [0xD9, 0x34, 0x92] (.cmp (.aby 0x9234)) && decodesTo [0xDD, 0x34, 0x92] (.cmp (.abx 0x9234)) &&
    decodesTo [0xE0, 0x8C] (.cpx (.imm 0x8C)) && decodesTo [0xE4, 0x8C] (.cpx (.zp0 0x8C)) &&
    decodesTo [0xEC, 0x34, 0x92] (.cpx (.abs 0x9234))) = true := by decide

theorem test_decode_cpy :
    (decodesTo [0xC0, 0x8C] (.cpy (.imm 0x8C)) && decodesTo [0xC4, 0x8C] (.cpy (.zp0 0x8C)) &&
    decodesTo [0xCC, 0x34, 0x92] (.cpy (.abs 0x9234))) = true := by decide

theorem test_decode_asl_lsr :
    (decodesTo [0x06, 0x8C] (.asl (.zp0 0x8C)) && decodesTo [0x0A] (.asl .imp) &&
    decodesTo [0x0E, 0x34, 0x92] (.asl (.abs 0x9234)) && decodesTo [0x16, 0x8C] (.asl (.zpx 0x8C)) &&
    decodesTo [0x1E, 0x34, 0x92] (.asl (.abx 0x9234)) && decodesTo [0x46, 0x8C] (.lsr (.zp0 0x8C)) &&
    decodesTo [0x4A] (.lsr .imp) && decodesTo [0x4E, 0x34, 0x92] (.lsr (.abs 0x9234)) &&
    decodesTo [0x56, 0x8C] (.lsr (.zpx 0x8C)) && decodesTo [0x5E, 0x34, 0x92] (.lsr (.abx 0x9234))) = true := by
  decide

theorem test_decode_rol_ror :
    (decodesTo [0x26, 0x8C] (.rol (.zp0 0x8C)) && decodesTo [0x2A] (.rol .imp) &&
    decodesTo [0x2E, 0x34, 0x92] (.rol (.abs 0x9234)) && decodesTo [0x36, 0x8C] (.rol (.zpx 0x8C)) &&
    decodesTo [0x3E, 0x34, 0x92] (.rol (.abx 0x9234)) && decodesTo [0x66, 0x8C] (.ror (.zp0 0x8C)) &&
    decodesTo [0x6A] (.ror .imp) && decodesTo [0x6E, 0x34, 0x92] (.ror (.abs 0x9234)) &&
    decodesTo [0x76, 0x8C] (.ror (.zpx 0x8C)) && decodesTo [0x7E, 0x34, 0x92] (.ror (.abx 0x9234))) = true := by
  decide

theorem test_decode_inc_dec_inx_iny_dex_dey :
    (decodesTo [0xE6, 0x8C] (.inc (.zp0 0x8C)) && decodesTo [0xEE, 0x34, 0x92] (.inc (.abs 0x9234)) &&
    decodesTo [0xF6, 0x8C] (.inc (.zpx 0x8C)) && decodesTo [0xFE, 0x34, 0x92] (.inc (.abx 0x9234)) &&
    decodesTo [0xC6, 0x8C] (.dec (.zp0 0x8C)) && decodesTo [0xCE, 0x34, 0x92] (.dec (.abs 0x9234)) &&
    decodesTo [0xD6, 0x8C] (.dec (.zpx 0x8C)) && decodesTo [0xDE, 0x34, 0x92] (.dec (.abx 0x9234)) &&
    decodesTo [0xE8] .inx && decodesTo [0xC8] .iny && decodesTo [0xCA] .dex && decodesTo [0x88] .dey) = true := by
  decide

theorem test_decode_bcc_bcs_beq_bmi_bne_bpl_bvc_bvs_jmp :
    (decodesTo [0x90, 0x8C] (.bcc 0x8C) && decodesTo [0xB0, 0x8C] (.bcs 0x8C) &&
    decodesTo [0xF0, 0x8C] (.beq 0x8C) && decodesTo [0x30, 0x8C] (.bmi 0x8C) &&
    decodesTo [0xD0, 0x8C] (.bne 0x8C) && decodesTo [0x10, 0x8C] (.bpl 0x8C) &&
    decodesTo [0x50, 0x8C] (.bvc 0x8C) && decodesTo [0x70, 0x8C] (.bvs 0x8C) &&
    decodesTo [0x4C, 0x34, 0x92] (.jmp (.abs 0x9234)) && decodesTo [0x6C, 0x34, 0x92] (.jmp (.ind 0x9234))) = true := by
  decide

theorem test_decode_pha_php_pla_plp_jsr_rts_brk_rti :
    (decodesTo [0x48] .pha && decodesTo [0x08] .php && decodesTo [0x68] .pla && decodesTo [0x28] .plp &&
    decodesTo [0x20, 0x34, 0x92] (.jsr 0x9234) && decodesTo [0x60] .rts && decodesTo [0x00] .brk &&
    decodesTo [0x40] .rti) = true := by decide

theorem test_decode_lda :
    (decodesTo [0xA1, 0x8C] (.lda (.izx 0x8C)) && decodesTo [0xA5, 0x8C] (.lda (.zp0 0x8C)) &&
    decodesTo [0xA9, 0x8C] (.lda (.imm 0x8C)) && decodesTo [0xAD, 0x34, 0x92] (.lda (.abs 0x9234)) &&
    decodesTo [0xB1, 0x8C] (.lda (.izy 0x8C)) && decodesTo [0xB5, 0x8C] (.lda (.zpx 0x8C)) &&
    decodesTo [0xB9, 0x34, 0x92] (.lda (.aby 0x9234)) && decodesTo [0xBD, 0x34, 0x92] (.lda (.abx 0x9234))) = true := by
  decide

theorem test_decode_ldx_ldy :
    (decodesTo [0xA2, 0x8C] (.ldx (.imm 0x8C)) && decodesTo [0xA6, 0x8C] (.ldx (.zp0 0x8C)) &&
    decodesTo [0xAE, 0x34, 0x92] (.ldx (.abs 0x9234)) && decodesTo [0xB6, 0x8C] (.ldx (.zpy 0x8C)) &&
    decodesTo [0xBE, 0x34, 0x92] (.ldx (.aby 0x9234)) && decodesTo [0xA0, 0x8C] (.ldy (.imm 0x8C)) &&
    decodesTo [0xA4, 0x8C] (.ldy (.zp0 0x8C)) && decodesTo [0xAC, 0x34, 0x92] (.ldy (.abs 0x9234)) &&
    decodesTo [0xB4, 0x8C] (.ldy (.zpx 0x8C)) && decodesTo [0xBC, 0x34, 0x92] (.ldy (.abx 0x9234))) = true := by
  decide

theorem test_decode_sta_stx :
    (decodesTo [0x81, 0x8C] (.sta (.izx 0x8C)) && decodesTo [0x85, 0x8C] (.sta (.zp0 0x8C)) &&
    decodesTo [0x8D, 0x34, 0x92] (.sta (.abs 0x9234)) && decodesTo [0x91, 0x8C] (.sta (.izy 0x8C)) &&
    decodesTo [0x95, 0x8C] (.sta (.zpx 0x8C)) && decodesTo [0x99, 0x34, 0x92] (.sta (.aby 0x9234)) &&
    decodesTo [0x9D, 0x34, 0x92] (.sta (.abx 0x9234)) && decodesTo [0x86, 0x8C] (.stx (.zp0 0x8C)) &&
    decodesTo [0x8E, 0x34, 0x92] (.stx (.abs 0x9234)) && decodesTo [0x96, 0x8C] (.stx (.zpy 0x8C))) = true := by
  decide

theorem test_decode_sty_tax_tay_txa_tya_tsx_txs :
    (decodesTo [0x84, 0x8C] (.sty (.zp0 0x8C)) && decodesTo [0x8C, 0x34, 0x92] (.sty (.abs 0x9234)) &&
    decodesTo [0x94, 0x8C] (.sty (.zpx 0x8C)) && decodesTo [0xAA] .tax && decodesTo [0xA8] .tay &&
    decodesTo [0x8A] .txa && decodesTo [0x98] .tya && decodesTo [0xBA] .tsx && decodesTo [0x9A] .txs) = true := by
  decide

theorem test_decode_clc_cld_cli_clv_sec_sed_sei_nop :
    (decodesTo [0x18] .clc && decodesTo [0xD8] .cld && decodesTo [0x58] .cli && decodesTo [0xB8] .clv &&
    decodesTo [0x38] .sec && decodesTo [0xF8] .sed && decodesTo [0x78] .sei && decodesTo [0xEA] .nop) = true := by
  decide

theorem test_decode_nopStar :
    ([
    0x04, 0x0C, 0x14, 0x1A, 0x1C, 0x34, 0x3A, 0x3C, 0x44, 0x54, 0x5A, 0x5C, 0x64, 0x74, 0x7A, 0x7C, 0x80, 0x82,
    0x89, 0x9C, 0xC2, 0xD4, 0xDA, 0xDC, 0xE2, 0xF4, 0xFA, 0xFC] : List Byte).all
      (fun op => decodesTo [op] (.nopStar op)) = true := by
  decide +kernel

theorem test_decode_ill :
    ([
    0x02, 0x03, 0x07, 0x0B, 0x0F, 0x12, 0x13, 0x17, 0x1B, 0x1F, 0x22, 0x23, 0x27, 0x2B, 0x2F, 0x32, 0x33, 0x37,
    0x3B, 0x3F, 0x42, 0x43, 0x47, 0x4B, 0x4F, 0x52, 0x53, 0x57, 0x5B, 0x5F] ++
    [
    0x62, 0x63, 0x67, 0x6B, 0x6F, 0x72, 0x73, 0x77, 0x7B, 0x7F, 0x83, 0x87, 0x8B, 0x8F, 0x92, 0x93, 0x97, 0x9B,
    0x9E, 0x9F, 0xA3, 0xA7, 0xAB, 0xAF, 0xB2, 0xB3, 0xB7, 0xBB, 0xBF, 0xC3] ++
    [
    0xC7, 0xCB, 0xCF, 0xD2, 0xD3, 0xD7, 0xDB, 0xDF, 0xE3, 0xE7, 0xEB, 0xEF, 0xF2, 0xF3, 0xF7, 0xFB, 0xFF] : List Byte).all
      (fun op => decodesTo [op] (.ill op)) = true := by
  decide +kernel

/-- Encoding is decoding's inverse on all 256 opcode bytes. -/
theorem test_encode_all :
    (List.range 256).all (fun op => (decodeTableWord 24 (op + 0x923400)).any fun i =>
      i.wellFormed && encode i == (tableBytes 24 (op + 0x923400)).take i.length) = true := by decide +kernel

/-- A table word gives no operand bits: they read as zero. -/
theorem test_table_word : decodeTableWord 8 0xAD = some (.lda (.abs 0)) := by decide

/-- Right after reset the very next step runs the placed instruction, whatever its opcode. -/
theorem test_step_runs_every_row :
    (List.range 256).all (fun op => nextWith (step (State.reset.withFetchWord 8 op)) fun t =>
      t.opcode == BitVec.ofNat 8 op) = true := by decide +kernel


/-! ## One step: vectors of 95_test_vectors.md, one or two for each instruction -/

/-- V-ADC-4. -/
theorem test_adc_4 : stepGives ({ small with a := 0x90 }) [0x69, 0x90] []
    (fun t => t.a == 0x20 && t.sr == 0x61 && t.pc == 0x8002 && t.cycles == 2 - 1) = true := by decide

/-- V-ADC-6. -/
theorem test_adc_6 : stepGives ({ small with a := 0x01, x := 0x20 }) [0x7D, 0xF0, 0x12] [(0x1310, 0x02)]
    (fun t => t.a == 0x03 && t.pc == 0x8003 && t.cycles == 5 - 1) = true := by decide

/-- V-SBC-2. -/
theorem test_sbc_2 : stepGives ({ small with a := 0x80, sr := 0x21 }) [0xE9, 0x01] []
    (fun t => t.a == 0x7F && t.sr == 0x61 && t.pc == 0x8002 && t.cycles == 2 - 1) = true := by decide

/-- V-SBC-3. -/
theorem test_sbc_3 : stepGives small [0xE9, 0x00] []
    (fun t => t.a == 0xFF && t.sr == 0xA0 && t.pc == 0x8002 && t.cycles == 2 - 1) = true := by decide

/-- V-AND-2. -/
theorem test_and_2 : stepGives ({ small with a := 0xC3 }) [0x25, 0x10] [(0x0010, 0x81)]
    (fun t => t.a == 0x81 && t.sr == 0xA0 && t.pc == 0x8002 && t.cycles == 3 - 1) = true := by decide

/-- V-ORA-1. -/
theorem test_ora_1 : stepGives ({ small with a := 0x01 }) [0x09, 0x80] []
    (fun t => t.a == 0x81 && t.sr == 0xA0 && t.pc == 0x8002 && t.cycles == 2 - 1) = true := by decide

/-- V-EOR-2. -/
theorem test_eor_2 : stepGives ({ small with a := 0xFF }) [0x49, 0x0F] []
    (fun t => t.a == 0xF0 && t.sr == 0xA0 && t.pc == 0x8002 && t.cycles == 2 - 1) = true := by decide

/-- V-BIT-1. -/
theorem test_bit_1 : stepGives ({ small with a := 0x01 }) [0x24, 0x10] [(0x0010, 0xC0)]
    (fun t => t.sr == 0xE2 && t.pc == 0x8002 && t.cycles == 3 - 1) = true := by decide

/-- V-CMP-4. -/
theorem test_cmp_4 : stepGives ({ small with a := 0x80 }) [0xC9, 0x00] []
    (fun t => t.sr == 0xA1 && t.pc == 0x8002 && t.cycles == 2 - 1) = true := by decide

/-- V-CMP-5. -/
theorem test_cmp_5 : stepGives ({ small with a := 0x10, y := 0x01 }) [0xD9, 0xFF, 0x80] [(0x8100, 0x10)]
    (fun t => t.sr == 0x23 && t.pc == 0x8003 && t.cycles == 5 - 1) = true := by decide

/-- V-CPX-1. -/
theorem test_cpx_1 : stepGives ({ small with x := 0x10 }) [0xE0, 0x20] []
    (fun t => t.sr == 0xA0 && t.pc == 0x8002 && t.cycles == 2 - 1) = true := by decide

/-- V-CPY-1. -/
theorem test_cpy_1 : stepGives ({ small with y := 0x80 }) [0xC0, 0x00] []
    (fun t => t.sr == 0xA1 && t.pc == 0x8002 && t.cycles == 2 - 1) = true := by decide

/-- V-ASL-1. -/
theorem test_asl_1 : stepGives ({ small with a := 0x81 }) [0x0A] []
    (fun t => t.a == 0x02 && t.sr == 0x21 && t.pc == 0x8001 && t.cycles == 2 - 1) = true := by decide

/-- V-ASL-3. -/
theorem test_asl_3 : stepGives ({ small with x := 0x20 }) [0x1E, 0xF0, 0x12] [(0x1310, 0x40)]
    (fun t => t.sr == 0xA0 && t.pc == 0x8003 &&
      t.load 0x1310 == 0x80 && t.cycles == 7 - 1) = true := by decide

/-- V-LSR-1. -/
theorem test_lsr_1 : stepGives ({ small with a := 0x01, sr := 0xA0 }) [0x4A] []
    (fun t => t.a == 0x00 && t.sr == 0x23 && t.pc == 0x8001 && t.cycles == 2 - 1) = true := by decide

/-- V-ROL-1. -/
theorem test_rol_1 : stepGives ({ small with a := 0x40, sr := 0x21 }) [0x2A] []
    (fun t => t.a == 0x81 && t.sr == 0xA0 && t.pc == 0x8001 && t.cycles == 2 - 1) = true := by decide

/-- V-ROR-1. -/
theorem test_ror_1 : stepGives ({ small with a := 0x02, sr := 0x21 }) [0x6A] []
    (fun t => t.a == 0x81 && t.sr == 0xA0 && t.pc == 0x8001 && t.cycles == 2 - 1) = true := by decide

/-- V-INC-3. -/
theorem test_inc_3 : stepGives ({ small with x := 0x01 }) [0xFE, 0xFF, 0x02] [(0x0300, 0x01)]
    (fun t => t.pc == 0x8003 && t.load 0x0300 == 0x02 && t.cycles == 7 - 1) = true := by decide

/-- V-DEC-1. -/
theorem test_dec_1 : stepGives small [0xC6, 0x10] [(0x0010, 0x00)]
    (fun t => t.sr == 0xA0 && t.pc == 0x8002 &&
      t.load 0x0010 == 0xFF && t.cycles == 5 - 1) = true := by decide

/-- V-INX-2. -/
theorem test_inx_2 : stepGives ({ small with x := 0x7F }) [0xE8] []
    (fun t => t.x == 0x80 && t.sr == 0xA0 && t.pc == 0x8001 && t.cycles == 2 - 1) = true := by decide

/-- V-INY-1. -/
theorem test_iny_1 : stepGives ({ small with y := 0xFF }) [0xC8] []
    (fun t => t.y == 0x00 && t.sr == 0x22 && t.pc == 0x8001 && t.cycles == 2 - 1) = true := by decide

/-- V-DEX-1. -/
theorem test_dex_1 : stepGives small [0xCA] []
    (fun t => t.x == 0xFF && t.sr == 0xA0 && t.pc == 0x8001 && t.cycles == 2 - 1) = true := by decide

/-- V-DEY-1. -/
theorem test_dey_1 : stepGives ({ small with y := 0x01 }) [0x88] []
    (fun t => t.y == 0x00 && t.sr == 0x22 && t.pc == 0x8001 && t.cycles == 2 - 1) = true := by decide

/-- V-BR-1. -/
theorem test_br_1 : stepGives small [0x90, 0x10] []
    (fun t => t.pc == 0x8012 && t.cycles == 3 - 1) = true := by decide

/-- V-BR-2. -/
theorem test_br_2 : stepGives small [0xB0, 0x10] []
    (fun t => t.pc == 0x8002 && t.cycles == 2 - 1) = true := by decide

/-- V-BR-3. -/
theorem test_br_3 : stepGives ({ small with sr := 0x22, pc := 0x80F0 }) [0xF0, 0x20] []
    (fun t => t.pc == 0x8112 && t.cycles == 4 - 1) = true := by decide

/-- V-BR-4. -/
theorem test_br_4 : stepGives ({ small with sr := 0xA0, pc := 0x8010 }) [0x30, 0xFE] []
    (fun t => t.pc == 0x8010 && t.cycles == 3 - 1) = true := by decide

/-- V-BR-5. -/
theorem test_br_5 : stepGives ({ small with pc := 0x8100 }) [0x10, 0x80] []
    (fun t => t.pc == 0x8082 && t.cycles == 4 - 1) = true := by decide

/-- V-BR-6. -/
theorem test_br_6 : stepGives ({ small with sr := 0x60, pc := 0xFFFD }) [0x70, 0x05] []
    (fun t => t.pc == 0x0004 && t.cycles == 4 - 1) = true := by decide

/-- V-BR-7. -/
theorem test_br_7 : stepGives ({ small with pc := 0x80FE }) [0xD0, 0xF0] []
    (fun t => t.pc == 0x80F0 && t.cycles == 4 - 1) = true := by decide

/-- V-BR-8. -/
theorem test_br_8 : stepGives ({ small with sr := 0x60 }) [0x50, 0x10] []
    (fun t => t.pc == 0x8002 && t.cycles == 2 - 1) = true := by decide

/-- V-BR-9. -/
theorem test_br_9 : stepGives small [0xD0, 0x00] []
    (fun t => t.pc == 0x8002 && t.cycles == 3 - 1) = true := by decide

/-- V-JMP-1. -/
theorem test_jmp_1 : stepGives small [0x4C, 0x00, 0x90] []
    (fun t => t.pc == 0x9000 && t.cycles == 3 - 1) = true := by decide

/-- V-JMP-2. -/
theorem test_jmp_2 : stepGives small [0x6C, 0xFF, 0x30] [(0x3000, 0x80), (0x30FF, 0x40), (0x3100, 0x50)]
    (fun t => t.pc == 0x8040 && t.cycles == 5 - 1) = true := by decide

/-- V-PHA-2. -/
theorem test_pha_2 : stepGives ({ small with a := 0x77, sp := 0x00 }) [0x48] []
    (fun t => t.sp == 0xFF && t.pc == 0x8001 &&
      t.load 0x0100 == 0x77 && t.cycles == 3 - 1) = true := by decide

/-- V-PHP-2. -/
theorem test_php_2 : stepGives ({ small with sr := 0xCF }) [0x08] []
    (fun t => t.sp == 0xFC && t.pc == 0x8001 &&
      t.load 0x01FD == 0xFF && t.cycles == 3 - 1) = true := by decide

/-- V-PLA-2. -/
theorem test_pla_2 : stepGives ({ small with a := 0x12, sp := 0xFF }) [0x68] [(0x0100, 0x00)]
    (fun t => t.a == 0x00 && t.sp == 0x00 &&
      t.sr == 0x22 && t.pc == 0x8001 && t.cycles == 4 - 1) = true := by decide

/-- V-PLP-1. -/
theorem test_plp_1 : stepGives ({ small with sp := 0xFC }) [0x28] [(0x01FD, 0xC3)]
    (fun t => t.sp == 0xFD && t.sr == 0xE3 && t.pc == 0x8001 && t.cycles == 4 - 1) = true := by decide

/-- V-JSR-1. -/
theorem test_jsr_1 : stepGives small [0x20, 0x00, 0x90] []
    (fun t => t.sp == 0xFB && t.pc == 0x9000 &&
      t.load 0x01FC == 0x02 && t.load 0x01FD == 0x80 && t.cycles == 6 - 1) = true := by decide

/-- V-RTS-2. -/
theorem test_rts_2 : stepGives ({ small with sp := 0xFB }) [0x60] [(0x01FC, 0xFF), (0x01FD, 0xFF)]
    (fun t => t.sp == 0xFD && t.pc == 0x0000 && t.cycles == 6 - 1) = true := by decide

/-- V-BRK-1. -/
theorem test_brk_1 : stepGives small [0x00, 0xEA] [(0xFFFE, 0x00), (0xFFFF, 0x90)]
    (fun t => t.sp == 0xFA && t.sr == 0x24 && t.pc == 0x9000 &&
      t.load 0x01FB == 0x34 && t.load 0x01FC == 0x02 && t.load 0x01FD == 0x80 && t.cycles == 7 - 1) = true := by
  decide

/-- V-RTI-2. -/
theorem test_rti_2 :
    stepGives ({ small with sp := 0xFA, sr := 0x24 }) [0x40] [(0x01FB, 0xC3), (0x01FC, 0x00), (0x01FD, 0x12)]
    (fun t => t.sp == 0xFD && t.sr == 0xE3 && t.pc == 0x1200 && t.cycles == 6 - 1) = true := by decide

/-- V-LDA-6. -/
theorem test_lda_6 :
    stepGives ({ small with x := 0x04 }) [0xA1, 0xFB] [(0x0000, 0x03), (0x00FF, 0x00), (0x0300, 0x44)]
    (fun t => t.a == 0x44 && t.pc == 0x8002 && t.cycles == 6 - 1) = true := by decide

/-- V-LDA-8. -/
theorem test_lda_8 :
    stepGives ({ small with y := 0x10 }) [0xB1, 0x86] [(0x0086, 0xF8), (0x0087, 0x40), (0x4108, 0x02)]
    (fun t => t.a == 0x02 && t.pc == 0x8002 && t.cycles == 6 - 1) = true := by decide

/-- V-LDX-1. -/
theorem test_ldx_1 : stepGives ({ small with y := 0x01 }) [0xB6, 0xFF] [(0x0000, 0x7E)]
    (fun t => t.x == 0x7E && t.pc == 0x8002 && t.cycles == 4 - 1) = true := by decide

/-- V-LDY-1. -/
theorem test_ldy_1 : stepGives ({ small with x := 0x05 }) [0xBC, 0x00, 0x20] [(0x2005, 0xFF)]
    (fun t => t.y == 0xFF && t.sr == 0xA0 && t.pc == 0x8003 && t.cycles == 4 - 1) = true := by decide

/-- V-STA-2. -/
theorem test_sta_2 : stepGives ({ small with a := 0x42, x := 0x01 }) [0x9D, 0xFF, 0x02] []
    (fun t => t.pc == 0x8003 && t.load 0x0300 == 0x42 && t.cycles == 5 - 1) = true := by decide

/-- V-STA-3. -/
theorem test_sta_3 : stepGives ({ small with a := 0x42, y := 0x10 }) [0x91, 0x86] [(0x0086, 0xF8), (0x0087, 0x40)]
    (fun t => t.pc == 0x8002 && t.load 0x4108 == 0x42 && t.cycles == 6 - 1) = true := by decide

/-- V-STX-1. -/
theorem test_stx_1 : stepGives ({ small with x := 0x9A, y := 0x02 }) [0x96, 0xFF] []
    (fun t => t.pc == 0x8002 && t.load 0x0001 == 0x9A && t.cycles == 4 - 1) = true := by decide

/-- V-STY-1. -/
theorem test_sty_1 : stepGives ({ small with y := 0x33 }) [0x8C, 0x00, 0x03] []
    (fun t => t.pc == 0x8003 && t.load 0x0300 == 0x33 && t.cycles == 4 - 1) = true := by decide

/-- V-TAX-1. -/
theorem test_tax_1 : stepGives ({ small with a := 0x80 }) [0xAA] []
    (fun t => t.x == 0x80 && t.sr == 0xA0 && t.pc == 0x8001 && t.cycles == 2 - 1) = true := by decide

/-- V-TAY-1. -/
theorem test_tay_1 : stepGives ({ small with y := 0x12 }) [0xA8] []
    (fun t => t.y == 0x00 && t.sr == 0x22 && t.pc == 0x8001 && t.cycles == 2 - 1) = true := by decide

/-- V-TXA-1. -/
theorem test_txa_1 : stepGives ({ small with a := 0xFF, x := 0x01, sr := 0xA2 }) [0x8A] []
    (fun t => t.a == 0x01 && t.sr == 0x20 && t.pc == 0x8001 && t.cycles == 2 - 1) = true := by decide

/-- V-TYA-1. -/
theorem test_tya_1 : stepGives ({ small with y := 0xFF }) [0x98] []
    (fun t => t.a == 0xFF && t.sr == 0xA0 && t.pc == 0x8001 && t.cycles == 2 - 1) = true := by decide

/-- V-TSX-1. -/
theorem test_tsx_1 : stepGives small [0xBA] []
    (fun t => t.x == 0xFD && t.sr == 0xA0 && t.pc == 0x8001 && t.cycles == 2 - 1) = true := by decide

/-- V-TXS-1. -/
theorem test_txs_1 : stepGives small [0x9A] []
    (fun t => t.sp == 0x00 && t.pc == 0x8001 && t.cycles == 2 - 1) = true := by decide

/-- V-CLC-1. -/
theorem test_clc_1 : stepGives ({ small with sr := 0x21 }) [0x18] []
    (fun t => t.sr == 0x20 && t.pc == 0x8001 && t.cycles == 2 - 1) = true := by decide

/-- V-CLD-1. -/
theorem test_cld_1 : stepGives ({ small with sr := 0x28 }) [0xD8] []
    (fun t => t.sr == 0x20 && t.pc == 0x8001 && t.cycles == 2 - 1) = true := by decide

/-- V-CLI-1. -/
theorem test_cli_1 : stepGives ({ small with sr := 0x24 }) [0x58] []
    (fun t => t.sr == 0x20 && t.pc == 0x8001 && t.cycles == 2 - 1) = true := by decide

/-- V-CLV-1. -/
theorem test_cl1 : stepGives ({ small with sr := 0x60 }) [0xB8] []
    (fun t => t.sr == 0x20 && t.pc == 0x8001 && t.cycles == 2 - 1) = true := by decide

/-- V-SEC-1. -/
theorem test_sec_1 : stepGives small [0x38] []
    (fun t => t.sr == 0x21 && t.pc == 0x8001 && t.cycles == 2 - 1) = true := by decide

/-- V-SED-1. -/
theorem test_sed_1 : stepGives small [0xF8] []
    (fun t => t.sr == 0x28 && t.pc == 0x8001 && t.cycles == 2 - 1) = true := by decide

/-- V-SEI-1. -/
theorem test_sei_1 : stepGives small [0x78] []
    (fun t => t.sr == 0x24 && t.pc == 0x8001 && t.cycles == 2 - 1) = true := by decide

/-- V-NOP-1. -/
theorem test_nop_1 : stepGives ({ small with a := 0x12, sr := 0xE3 }) [0xEA] []
    (fun t => t.pc == 0x8001 && t.cycles == 2 - 1) = true := by decide

/-- V-NOP-2. -/
theorem test_nop_2 : stepGives ({ small with x := 0x01 }) [0x1C, 0xFF, 0x12] []
    (fun t => t.pc == 0x8001 && t.cycles == 4 - 1) = true := by decide

/-- V-ILL-2. -/
theorem test_ill_2 : stepGives ({ small with a := 0x05, sr := 0x21 }) [0xEB, 0x01] []
    (fun t => t.pc == 0x8001 && t.cycles == 2 - 1) = true := by decide

/-! ## The driver's calls: vectors of 95_test_vectors.md -/

/-- IRQ with I = 0: 7 cycles, frame, vector (IRQ-1). -/
theorem test_irq_taken : nextWith (drive (.interrupt .irq) (withCells { small with pc := 0x8123 } [] [(0xFFFF, 0x90)]))
    (fun t => t.pc == 0x9000 && t.sr == 0x24 && t.sp == 0xFA && t.cycles == 7 && t.load 0x01FD == 0x81 &&
      t.load 0x01FC == 0x23 && t.load 0x01FB == 0x20) = true := by decide

/-- NMI with I = 1 is taken (NMI-1). -/
theorem test_nmi_taken : nextWith (drive (.interrupt .nmi) (withCells masked [] [(0xFFFB, 0x91)]))
    (fun t => t.pc == 0x9100 && t.sr == 0x24 && t.cycles == 7 && t.load 0x01FB == 0x24) = true := by decide

/-- The vector at 0xFFFC and the values of R44. -/
theorem test_reset_call : nextWith (drive .reset (withCells { small with a := 1, sr := 0xFF } [] [(0xFFFD, 0x80)]))
    (fun t => t.pc == 0x8000 && t.sr == 0x20 && t.sp == 0xFD && t.a == 0 && t.cycles == 8) = true := by decide

/-- A script is made call by call. -/
theorem test_script :
    nextWith (core.run 3 { small with driver := [.reset, .interrupt .nmi] }) (fun _ => true) = false ∧
    nextWith (core.run 2 { small with driver := [.interrupt .nmi, .reset] }) (fun t => t.cycles == 8) = true := by
  decide

/-! ## Witnesses: for each obligation with hypotheses, states and operands that meet them -/

theorem witness_DecodeOfEncodeIsTheInstruction :
    (Instr.lda (.abx 0xFFFF)).wellFormed = true ∧ (Instr.nopStar 0xFC).wellFormed = true ∧
      (Instr.ill 0xFF).wellFormed = true ∧ (Instr.bvs 0x80).wellFormed = true := by decide

theorem witness_EncodeOfDecodeIsTheBytes : decode [0x6C, 0xFF, 0x30, 0xEA] = .ok (.jmp (.ind 0x30FF), [0xEA]) := by
  decide

theorem witness_StepRunsTheDecodedInstruction :
    let s := withCells small [0xA9, 0x80] []
    s.driver = [] ∧ s.cycles = 0 ∧
      decode [s.load s.pc, s.load (s.pc + 1), s.load (s.pc + 2)] = .ok (.lda (.imm 0x80), [0x00]) := by decide

theorem witness_IdleClockOnlyCountsDown : State.reset.driver = [] ∧ State.reset.cycles ≠ 0 := by decide

/-- A page-crossing load, a branch taken to another page, a branch not taken, an Implied instruction. -/
theorem witness_CyclesBeyondTheBaseCount :
    ((Instr.lda (.abx 0xFFFF)).wellFormed = true ∧
      ∃ t, exec (.lda (.abx 0xFFFF)) { small with x := 1 } = .next t) ∧
    ((Instr.bcc 0x80).wellFormed = true ∧ ∃ t, exec (.bcc 0x80) small = .next t) ∧
    ((Instr.bcs 0x80).wellFormed = true ∧ ∃ t, exec (.bcs 0x80) small = .next t) ∧
    (Instr.nop.wellFormed = true ∧ ∃ t, exec .nop small = .next t) :=
  ⟨⟨by decide, completes (by decide)⟩, ⟨by decide, completes (by decide)⟩,
    ⟨by decide, completes (by decide)⟩, by decide, completes (by decide)⟩

theorem witness_DispatchOccupiesItsCycles :
    small.driver = [] ∧ small.cycles = 0 ∧ ∃ u, dispatch small = .next u ∧ decide (1 < u.cycles.toNat) = true :=
  ⟨rfl, rfl, next_of_nextWith (by decide)⟩

theorem witness_CompleteInstructionDispatchesOnce : small.cycles = 0 ∧ ∃ u, dispatch small = .next u :=
  ⟨rfl, completes (by decide)⟩

theorem witness_ResetLatencyDispatchesNothing : small.driver = [] ∧ 8 ≤ 8 := by decide

theorem witness_IrqIsTakenUnlessMasked :
    (masked.cycles = 0 ∧ masked.flag .i = true) ∧
      (small.cycles = 0 ∧ small.flag .i = false ∧ small.mem.wf = true) := by decide

theorem witness_NmiIsAlwaysTaken :
    (masked.cycles = 0 ∧ masked.mem.wf = true) ∧ (small.cycles = 0 ∧ small.mem.wf = true) := by decide

theorem witness_InterruptMidInstructionFaults :
    State.reset.cycles ≠ 0 ∧ small.cycles = 0 := by decide

/-- Each of the two stops is reached. -/
theorem witness_MachineStopsOnlyInTheTwoStatedWays :
    (match step { State.reset with driver := [.interrupt .irq] } with
      | .fault f => f == .interruptMidInstruction .irq
      | _ => false) = true ∧
    (match step { withCells small [0x02] [] with cfg := { illegalOpcodePolicy := .refuse } } with
      | .refused r => r == .illegalOpcode 0x02 0x8000
      | _ => false) = true := by decide

theorem witness_ScriptedCallsAreMadeInOrder :
    small.driver = [] ∧ ({ small with driver := [.reset, .clock] } : State).driver = .reset :: [.clock] ∧
      ∃ t, drive .reset small = .next t :=
  ⟨rfl, rfl, completes (by decide)⟩

/-- The handler's RTI right after the entry, for each of the three entries. -/
theorem witness_InterruptEntryAndReturn :
    small.mem.wf = true ∧ small.flag .i = false ∧ (∀ t, FrameUntouched small t t) ∧
      (∃ t, drive (.interrupt .irq) small = .next t) ∧ (∃ t, drive (.interrupt .nmi) small = .next t) ∧
      ∃ t, exec .brk small = .next t :=
  ⟨by decide, by decide, fun _ => ⟨rfl, rfl, rfl, rfl⟩, completes (by decide), completes (by decide),
    completes (by decide)⟩

theorem witness_EqualReadsMeanEqualMemories : Memory.wf [(0, 1), (0xFFFF, 0xFF)] = true ∧ Memory.wf [] = true := by
  decide

/-- The form refuses a cell out of order, out of the address space, or that says what an unlisted address says. -/
theorem test_memory_form :
    Memory.wf [(1, 1), (0, 1)] = false ∧ Memory.wf [(0x10000, 1)] = false ∧ Memory.wf [(0, 0)] = false ∧
      Memory.wf [(0, 1), (0, 2)] = false := by decide

theorem witness_StepKeepsTheInvariant : Invariant small ∧ ∃ t, step small = .next t :=
  ⟨by decide, completes (by decide)⟩

/-- Every clause: a step with U = 1, PLP, an instruction that is neither PLP nor RTI, a taken IRQ, an NMI. -/
theorem witness_UnusedBitStaysSet :
    small.flag .u = true ∧ (∃ t, step small = .next t) ∧ (∃ t, exec .plp small = .next t) ∧
      (∃ t, exec .sei small = .next t) ∧ small.flag .i = false ∧ (∃ t, interruptCall .irq small = .next t) ∧
      ∃ t, interruptCall .nmi masked = .next t :=
  ⟨by decide, completes (by decide), completes (by decide), completes (by decide), by decide,
    completes (by decide), completes (by decide)⟩

theorem witness_LatchesAreUnobservable :
    SameButLatches small { small with fetched := 1, temp := 2, addrAbs := 3, addrRel := 4, opcode := 0x1C } ∧
      ∃ t, step small = .next t :=
  ⟨rfl, completes (by decide)⟩

theorem witness_EveryInstructionCompletes :
    isIllegal .brk = false ∧ small.cfg.illegalOpcodePolicy = .nop := by decide

/-- For the four frames (FlagsChangeOnlyAsListed to LatchesAndParametersKept): instructions that store, that write a
register, that write a flag, and that do none of these. -/
theorem witness_frames :
    small.mem.wf = true ∧ (Instr.sta (.abs 0xFFFF)).wellFormed = true ∧
      (∃ t, exec (.sta (.abs 0xFFFF)) small = .next t) ∧ (∃ t, exec .tax small = .next t) ∧
      (∃ t, exec .clc small = .next t) ∧ (∃ t, exec (.jmp (.ind 0x30FF)) small = .next t) ∧
      Reg.sp ∉ registersWritten .tax ∧ writesTemp .tax = false ∧ Instr.tax.operand.mode = .imp ∧
      0xFFFE ∉ storesTo (.sta (.abs 0xFFFF)) small :=
  ⟨by decide, by decide, completes (by decide), completes (by decide), completes (by decide),
    completes (by decide), by decide, by decide, by decide, by decide⟩

/-- For each clause of LatchesAndParametersKept: the branch not taken, and each kind of instruction that keeps `fetched`. -/
theorem witness_LatchesAndParametersKept :
    (Instr.bcs 0x80).wellFormed = true ∧ (∃ t, exec (.bcs 0x80) small = .next t) ∧
      branchTest (Instr.bcs 0x80).mnemonic = some (.c, true) ∧ small.flag .c ≠ true ∧
      [Instr.sta (.izy 0xFF), .stx (.zpy 0xFF), .sty (.zpx 0xFF), .jmp (.ind 0xFFFF), .jsr 0xFFFF, .bcc 0x80, .bcs 0x80].all
        (fun i => i.wellFormed && i.operand.mode != .imp && !callsFetch i.mnemonic &&
          nextWith (exec i small) fun _ => true) = true ∧
      Instr.clc.operand.mode ≠ .rel ∧ Instr.clc.operand.mode = .imp ∧ writesTemp Instr.clc.mnemonic = false :=
  ⟨by decide, completes (by decide), by decide, by decide, by decide, by decide, by decide, by decide⟩

/-- For AdcAddsWithCarry, SbcSubtractsWithBorrow, LogicOperations, BitTestsMemory, ComparesAreUnsigned and LDA of
LoadsPutTheOperand: every operand form. -/
theorem witness_arithmetic_logic_forms :
    [Operand.imm 0xFF, .zp0 0xFF, .zpx 0xFF, .abs 0xFFFF, .abx 0xFFFF, .aby 0xFFFF, .izx 0xFF, .izy 0xFF].all (fun m =>
      (Instr.adc m).wellFormed && (Instr.sbc m).wellFormed && (Instr.and m).wellFormed && (Instr.ora m).wellFormed &&
      (Instr.eor m).wellFormed && (Instr.cmp m).wellFormed && (Instr.lda m).wellFormed) = true ∧
    [Operand.zp0 0xFF, .abs 0xFFFF].all (fun m => (Instr.bit m).wellFormed) = true ∧
    [Operand.imm 0xFF, .zp0 0xFF, .abs 0xFFFF].all (fun m =>
      (Instr.cpx m).wellFormed && (Instr.cpy m).wellFormed) = true := by decide

/-- For AslAndLsrShift, RolAndRorRotateThroughCarry, IncAndDecStepMemory, LoadsPutTheOperand and StoresWriteTheRegister:
every operand form, over a canonical memory. -/
theorem witness_memory_forms :
    small.mem.wf = true ∧
    [Operand.imp, .zp0 0xFF, .zpx 0xFF, .abs 0xFFFF, .abx 0xFFFF].all (fun m =>
      (Instr.asl m).wellFormed && (Instr.lsr m).wellFormed && (Instr.rol m).wellFormed &&
      (Instr.ror m).wellFormed) = true ∧
    [Operand.zp0 0xFF, .zpx 0xFF, .abs 0xFFFF, .abx 0xFFFF].all (fun m =>
      (Instr.inc m).wellFormed && (Instr.dec m).wellFormed) = true ∧
    [Operand.imm 0xFF, .zp0 0xFF, .zpy 0xFF, .abs 0xFFFF, .aby 0xFFFF].all (fun m =>
      (Instr.ldx m).wellFormed) = true ∧
    [Operand.imm 0xFF, .zp0 0xFF, .zpx 0xFF, .abs 0xFFFF, .abx 0xFFFF].all (fun m =>
      (Instr.ldy m).wellFormed) = true ∧
    [Operand.zp0 0xFF, .zpx 0xFF, .abs 0xFFFF, .abx 0xFFFF, .aby 0xFFFF, .izx 0xFF, .izy 0xFF].all (fun m =>
      (Instr.sta m).wellFormed) = true ∧
    [Operand.zp0 0xFF, .zpy 0xFF, .abs 0xFFFF].all (fun m => (Instr.stx m).wellFormed) = true ∧
    [Operand.zp0 0xFF, .zpx 0xFF, .abs 0xFFFF].all (fun m => (Instr.sty m).wellFormed) = true := by decide

/-- The signed overflow boundary: 0x80 - 0x01 overflows, 0x7F + 0x00 + 1 overflows. -/
theorem witness_OverflowLaw :
    (Instr.sbc (.imm 0x01)).wellFormed = true ∧
      (∃ t, exec (.sbc (.imm 0x01)) { small with a := 0x80, sr := 0x21 } = .next t ∧ t.flag .v = true) ∧
      (Instr.adc (.imm 0x00)).wellFormed = true ∧
      (∃ t, exec (.adc (.imm 0x00)) { small with a := 0x7F, sr := 0x21 } = .next t ∧ t.flag .v = true) :=
  ⟨by decide, next_of_nextWith (by decide), by decide, next_of_nextWith (by decide)⟩

theorem witness_DecimalFlagHasNoNumericEffect :
    (∃ t, exec (.adc (.imm 0x09)) { small with a := 0x01 } = .next t) ∧
      ∃ t, exec (.sbc (.imm 0x09)) { small with a := 0x10 } = .next t :=
  ⟨completes (by decide), completes (by decide)⟩

/-- An "Encodings:" line's own hypothesis, at both kinds of operand. -/
theorem witness_EncodedAs :
    ((Operand.imm 0xFF).mode, (0x69 : Byte)) ∈ [(Mode.imm, (0x69 : Byte)), (.zp0, 0x65)] ∧
      encode (.adc (.imm 0xFF)) = [0x69, 0xFF] ∧ encode (.sta (.aby 0x12F0)) = [0x99, 0xF0, 0x12] := by decide

/-- Each branch is taken in one of these two states and not taken in the other. -/
theorem witness_BranchesGoWhereTheySay :
    let clear := small
    let set : State := { small with sr := 0xFF }
    [Flag.c, .z, .n, .v].all (fun f => clear.flag f == false && set.flag f == true) = true := by decide

/-- Targets in the page of the next instruction and in another, at the ends of the displacement's range. -/
theorem test_branch_pages :
    nextWith (exec (.bcc 0x7F) { small with pc := 0x8001 }) (fun t => t.pc == 0x8081 && t.cycles == 1) = true ∧
    nextWith (exec (.bcc 0x80) { small with pc := 0x8001 }) (fun t => t.pc == 0x7F82 && t.cycles == 2) = true ∧
    nextWith (exec (.bcs 0x80) { small with pc := 0x8001 }) (fun t => t.pc == 0x8002 && t.cycles == 0) = true := by
  decide

/-- For the pushes, JSR and BRK: SP at 0xFD and at 0, where a push wraps. -/
theorem witness_stack : small.mem.wf = true ∧ { small with sp := 0 : State }.mem.wf = true := by decide

theorem witness_JsrThenRtsReturns :
    small.mem.wf = true ∧ ∃ t, exec (.jsr 0x9000) small = .next t :=
  ⟨by decide, completes (by decide)⟩

theorem witness_FlagInstructionsWriteOneFlag :
    (Instr.clv, Flag.v, false) ∈ [(Instr.clc, Flag.c, false), (.cld, .d, false), (.cli, .i, false), (.clv, .v, false),
      (.sec, .c, true), (.sed, .d, true), (.sei, .i, true)] := by decide

theorem witness_IllegalSlotsDoNothing :
    nopStarSlots.contains 0x1C = true ∧ illSlots.contains 0xFF = true ∧ small.cfg.illegalOpcodePolicy = .nop := by
  decide

theorem witness_RefusePolicyRefusesIllegalSlots :
    let s : State := { withCells small [0xFF] [] with cfg := { illegalOpcodePolicy := .refuse } }
    s.driver = [] ∧ s.cycles = 0 ∧ s.cfg.illegalOpcodePolicy = .refuse ∧ isIllegalSlot (s.load s.pc) = true := by
  decide
end

