-- ==== Sys2Proof/Proofs/Unwritten.lean ====
section
/-! SUPPORT. The three fields that no instruction writes: `opcode` (10_state.md R37), the launch's policy (log 5) and the
driver's script (log 1). One lemma per shared operation of the model, then one for every instruction. -/

namespace Sys2Proof.Machine

/-- The fields that no instruction writes. -/
def State.unwritten (s : State) : Byte × Config × List DriverCall := (s.opcode, s.cfg, s.driver)

@[simp] theorem unwritten_eq_iff {s t : State} :
    t.unwritten = s.unwritten ↔ t.opcode = s.opcode ∧ t.cfg = s.cfg ∧ t.driver = s.driver := by
  simp [State.unwritten]

theorem driver_eq {s t : State} (h : t.unwritten = s.unwritten) : t.driver = s.driver := (unwritten_eq_iff.mp h).2.2

/-! ## The operations -/

section
variable (v : Byte) (m : Operand) (s : State)

theorem resolve_unwritten : (resolve m s).unwritten = s.unwritten := by simp

theorem fetchOperand_unwritten : (fetchOperand m s).unwritten = s.unwritten := by
  rw [fetchOperand_eq]; rfl

theorem writeBack_unwritten : (writeBack m v s).unwritten = s.unwritten := by cases m <;> rfl

theorem branchIf_unwritten (cond : Bool) : (branchIf cond s).unwritten = s.unwritten := by cases cond <;> rfl

theorem shiftTo_unwritten (out : Bool) (t : Addr) : (shiftTo m out t s).unwritten = s.unwritten :=
  writeBack_unwritten ..

theorem storeZN_unwritten (t : Addr) : (storeZN t s).unwritten = s.unwritten := by simp [storeZN]

theorem enterInterrupt_unwritten (ret : Addr) (copy live : Byte) (vector : Addr) :
    (enterInterrupt ret copy live vector s).unwritten = s.unwritten := by simp [enterInterrupt_eq]

theorem interruptEntry_unwritten (vector : Addr) : (interruptEntry vector s).unwritten = s.unwritten := by
  simp [interruptEntry, enterInterrupt_eq]

theorem returnFromInterrupt_unwritten : (returnFromInterrupt s).unwritten = s.unwritten := by
  simp [returnFromInterrupt_eq]

end

/-- Handing the operand to an operation writes what the operation writes, and `fetched`. -/
theorem withOperand_unwritten {op : Byte → State → State} (hop : ∀ v u, (op v u).unwritten = u.unwritten)
    (m : Operand) (s : State) : (withOperand m op s).unwritten = s.unwritten :=
  (hop ..).trans (fetchOperand_unwritten m s)

/-- The frame that the instructions share adds only what the resolver writes, and the extra cycle (R123, R152). -/
theorem runSlot_unwritten {m : Operand} {e2 : Bool} {op : State → State} {s t : State}
    (h : runSlot m e2 op s = .next t) (hop : ∀ u, (op u).unwritten = u.unwritten) : t.unwritten = s.unwritten := by
  rw [runSlot_next] at h
  cases h
  exact (hop _).trans (resolve_unwritten m s)

/-- An illegal slot that answers a next state has run its handler (R272). -/
theorem handler_of_illegalSlot_next {slot : Byte} {handler : State → Host.Outcome State Fault Refusal} {s t : State}
    (h : illegalSlot slot handler s = .next t) : handler s = .next t := by
  rw [illegalSlot_eq] at h
  split at h
  · cases h
  · exact h

/-! ## Every instruction -/

theorem exec_unwritten {i : Instr} {s t : State} (h : exec i s = .next t) : t.unwritten = s.unwritten := by
  cases i with
  | nopStar slot | ill slot => exact runSlot_unwritten (handler_of_illegalSlot_next h) fun _ => rfl
  | bcc dd | bcs dd | beq dd | bmi dd | bne dd | bpl dd | bvc dd | bvs dd =>
    exact runSlot_unwritten h fun _ => branchIf_unwritten ..
  | asl m | lsr m | rol m | ror m =>
    exact runSlot_unwritten h (withOperand_unwritten (fun _ _ => shiftTo_unwritten ..) m)
  | inc m | dec m => exact runSlot_unwritten h (withOperand_unwritten (fun _ _ => storeZN_unwritten ..) m)
  | adc m | sbc m | and m | ora m | eor m | bit m | cmp m | cpx m | cpy m | lda m | ldx m | ldy m =>
    exact runSlot_unwritten h (withOperand_unwritten (fun _ _ => rfl) m)
  -- The stack instructions are unfolded by name first: left to unification, their pulls and vector reads are computed.
  | brk =>
    simp only [exec, execBrk] at h
    exact runSlot_unwritten h fun _ => enterInterrupt_unwritten ..
  | rti =>
    simp only [exec, execRti] at h
    exact runSlot_unwritten h returnFromInterrupt_unwritten
  | pha | php | pla | plp | jsr target | rts =>
    simp only [exec, execPha, execPhp, execPla, execPlp, execJsr, execRts] at h
    exact runSlot_unwritten h fun _ => by simp [push, pushWord, pop, setAZN]
  | _ => exact runSlot_unwritten h fun _ => rfl

theorem exec_driver {i : Instr} {s t : State} (h : exec i s = .next t) : t.driver = s.driver :=
  driver_eq (exec_unwritten h)

end Sys2Proof.Machine
end

