-- ==== Sys2Proof/Proofs/Script.lean ====
section
/-! SUPPORT. No call by the driver changes the script it stands in (log 1). -/

namespace Sys2Proof.Machine

theorem clock_driver {s t : State} (h : clock s = .next t) : t.driver = s.driver := by
  by_cases hc : s.cycles = 0
  · rw [clock_dispatch hc] at h
    cases hd : dispatch s with
    | next u =>
      rw [hd] at h
      injection h with h
      subst h
      exact (exec_driver hd : u.driver = (afterFetch s).driver)
    | fault r | refused r => rw [hd] at h; cases h
  · rw [clock_idle hc] at h
    cases h
    rfl

theorem interruptCall_driver {k : InterruptCall} {s t : State} (h : interruptCall k s = .next t) :
    t.driver = s.driver := by
  rw [interruptCall_eq] at h
  split_ifs at h <;> injection h with h <;> rw [← h]
  · exact driver_eq (interruptEntry_unwritten ..)
  · exact driver_eq (interruptEntry_unwritten ..)

theorem drive_driver {call : DriverCall} {s t : State} (h : drive call s = .next t) : t.driver = s.driver := by
  cases call with
  | clock => exact clock_driver h
  | reset => cases h; rfl
  | interrupt k => exact interruptCall_driver h

/-- Settles O18: the two shapes of a step are the model's own laws, and every call keeps the script. -/
theorem scriptedCallsAreMadeInOrder : Obligations.ScriptedCallsAreMadeInOrder :=
  fun _ => ⟨step_clock, fun _ _ => step_scripted, fun _ _ => drive_driver⟩

end Sys2Proof.Machine
end

