-- ==== Sys2Proof/Proofs/Operation.lean ====
section
/-! SUPPORT. Every instruction in one shape (40_fetch_sequencer.md R123): the resolver of its mode, its own operation, the
extra cycle where its handler returns 1 and the resolver crossed a page. What an instruction can write is then a fact
about `operation` alone, on any state. -/

namespace Sys2Proof.Machine

/-- What the handler of an instruction does to the resolved state (the instruction rules of the 42 to 48 files). -/
def operation (i : Instr) (u : State) : State :=
  match i with
  | .adc m => withOperand m addCarry u
  | .sbc m => withOperand m (fun v => addCarry (v ^^^ 0xFF)) u
  | .and m => withOperand m (fun v t => setAZN (t.a &&& v) t) u
  | .ora m => withOperand m (fun v t => setAZN (t.a ||| v) t) u
  | .eor m => withOperand m (fun v t => setAZN (t.a ^^^ v) t) u
  | .bit m => withOperand m testBits u
  | .cmp m => withOperand m (fun v t => compareWith t.a v t) u
  | .cpx m => withOperand m (fun v t => compareWith t.x v t) u
  | .cpy m => withOperand m (fun v t => compareWith t.y v t) u
  | .asl m => withOperand m (fun v t => shiftTo m (v.getLsbD 7) (zext v <<< 1) t) u
  | .lsr m => withOperand m (fun v t => shiftTo m (v.getLsbD 0) (zext v >>> 1) t) u
  | .rol m => withOperand m (fun v t => shiftTo m (v.getLsbD 7) ((zext v <<< 1) ||| carryWord t.sr) t) u
  | .ror m => withOperand m (fun v t => shiftTo m (v.getLsbD 0) ((carryWord t.sr <<< 7) ||| (zext v >>> 1)) t) u
  | .inc m => withOperand m (fun v => storeZN (zext v + 1)) u
  | .dec m => withOperand m (fun v => storeZN (zext v - 1)) u
  | .inx => setXZN (u.x + 1) u
  | .iny => setYZN (u.y + 1) u
  | .dex => setXZN (u.x - 1) u
  | .dey => setYZN (u.y - 1) u
  | .bcc _ => branchIf (u.flag .c == false) u
  | .bcs _ => branchIf (u.flag .c == true) u
  | .beq _ => branchIf (u.flag .z == true) u
  | .bmi _ => branchIf (u.flag .n == true) u
  | .bne _ => branchIf (u.flag .z == false) u
  | .bpl _ => branchIf (u.flag .n == false) u
  | .bvc _ => branchIf (u.flag .v == false) u
  | .bvs _ => branchIf (u.flag .v == true) u
  | .jmp _ => u.setPc u.addrAbs
  | .pha => push u.a u
  | .php => push (phpCopy u.sr) u
  | .pla => setAZN (pulled u) (pop u)
  | .plp => (pop u).setSr (plpStatus (pulled u))
  | .jsr _ => (pushWord (u.pc - 1) u).setPc u.addrAbs
  | .rts => (pop (pop u)).setPc (pulledWord u + 1)
  | .brk => breakEntry u
  | .rti => returnFromInterrupt u
  | .lda m => withOperand m setAZN u
  | .ldx m => withOperand m setXZN u
  | .ldy m => withOperand m setYZN u
  | .sta _ => u.store u.addrAbs u.a
  | .stx _ => u.store u.addrAbs u.x
  | .sty _ => u.store u.addrAbs u.y
  | .tax => setXZN u.a u
  | .tay => setYZN u.a u
  | .txa => setAZN u.x u
  | .tya => setAZN u.y u
  | .tsx => setXZN u.sp u
  | .txs => u.setSp u.x
  | .clc => u.setSr (setFlag .c false u.sr)
  | .cld => u.setSr (setFlag .d false u.sr)
  | .cli => u.setSr (setFlag .i false u.sr)
  | .clv => u.setSr (setFlag .v false u.sr)
  | .sec => u.setSr (setFlag .c true u.sr)
  | .sed => u.setSr (setFlag .d true u.sr)
  | .sei => u.setSr (setFlag .i true u.sr)
  | .nop | .nopStar _ | .ill _ => u

/-- The next state of an instruction that answers one. -/
def result (i : Instr) (s : State) : State :=
  addExtraCycle (crossesPage i.operand s && paysPageCycle i.mnemonic) (operation i (resolve i.operand s))

/-- Every instruction of an official slot is its resolver, its operation and its extra cycle. -/
theorem exec_official {i : Instr} (h : isIllegal i = false) (s : State) : exec i s = .next (result i s) := by
  cases i with
  | nopStar slot | ill slot => cases h
  -- The stack instructions are unfolded by name first: left to unification, their pulls and vector reads are computed.
  | pla | plp | jsr target | rts | brk | rti =>
    simp only [exec, execPla, execPlp, execJsr, execRts, execBrk, execRti]
    exact runSlot_eq ..
  | _ => exact runSlot_eq ..

/-- An illegal slot runs its handler, which changes nothing that the resolver does not, unless the policy refuses it
(R269, R270, R272). -/
theorem exec_illegal {i : Instr} (h : isIllegal i = true) (s : State) :
    ∃ slot, exec i s =
      if s.cfg.illegalOpcodePolicy = .refuse then .refused (.illegalOpcode slot (s.pc - 1)) else .next (result i s) := by
  cases i with
  | nopStar slot | ill slot => exact ⟨slot, illegalSlot_eq ..⟩
  | _ => cases h

/-- An instruction answers a next state, and that is `result`, unless it is an illegal slot that the policy refuses. -/
theorem exec_next_iff {i : Instr} {s t : State} :
    exec i s = .next t ↔ (isIllegal i = false ∨ s.cfg.illegalOpcodePolicy = .nop) ∧ t = result i s := by
  cases hi : isIllegal i with
  | false => simp [exec_official hi, eq_comm]
  | true =>
    obtain ⟨slot, he⟩ := exec_illegal hi s
    cases hp : s.cfg.illegalOpcodePolicy <;> simp [he, hp, eq_comm]

theorem eq_result {i : Instr} {s t : State} (h : exec i s = .next t) : t = result i s := (exec_next_iff.mp h).2

/-- The operand is fetched, then handed to the operation on the state that holds it (R126). -/
theorem withOperand_eq (m : Operand) (op : Byte → State → State) (u : State) :
    withOperand m op u = op (fetchOperand m u).fetched (u.setFetched (fetchOperand m u).fetched) := by
  rw [withOperand, ← fetchOperand_eq]

/-! ## The fields that the shared frame leaves to the operation -/

section
variable (i : Instr) (s : State)

@[simp] theorem result_reg (r : Reg) : (result i s).reg r = (operation i (resolve i.operand s)).reg r := by
  simp only [result, addExtraCycle_eq]; cases r <;> rfl

@[simp] theorem result_sr : (result i s).sr = (operation i (resolve i.operand s)).sr := by
  simp only [result, addExtraCycle_eq]

@[simp] theorem result_fetched : (result i s).fetched = (operation i (resolve i.operand s)).fetched := by
  simp only [result, addExtraCycle_eq]

@[simp] theorem result_temp : (result i s).temp = (operation i (resolve i.operand s)).temp := by
  simp only [result, addExtraCycle_eq]

@[simp] theorem result_addrAbs : (result i s).addrAbs = (operation i (resolve i.operand s)).addrAbs := by
  simp only [result, addExtraCycle_eq]

@[simp] theorem result_addrRel : (result i s).addrRel = (operation i (resolve i.operand s)).addrRel := by
  simp only [result, addExtraCycle_eq]

@[simp] theorem result_mem : (result i s).mem = (operation i (resolve i.operand s)).mem := by
  simp only [result, addExtraCycle_eq]

end

end Sys2Proof.Machine
end

