-- ==== Sys2Proof/Proofs/StepCases.lean ====
section
/-! SUPPORT. What a step that answers a next state has done, and from it: what every kind of call keeps, every step
keeps (40_fetch_sequencer.md R120, R121; 60_exceptions.md R302). -/

namespace Sys2Proof.Machine

/-- A step is some call on the state whose script no longer holds it (log 1). -/
theorem step_eq_drive (s : State) : ∃ call rest, step s = drive call (s.setDriver rest) := by
  cases h : s.driver with
  | nil => exact ⟨.clock, [], by rw [step_clock h, ← h]; rfl⟩
  | cons call rest => exact ⟨call, rest, step_scripted h⟩

theorem clock_next {s t : State} (h : clock s = .next t) :
    (s.cycles ≠ 0 ∧ t = countDown s) ∨ (s.cycles = 0 ∧ ∃ u, dispatch s = .next u ∧ t = countDown u) := by
  by_cases hc : s.cycles = 0
  · rw [clock_dispatch hc] at h
    cases hd : dispatch s with
    | next u => rw [hd] at h; cases h; exact .inr ⟨hc, u, rfl, rfl⟩
    | fault r | refused r => rw [hd] at h; cases h
  · rw [clock_idle hc] at h
    cases h
    exact .inl ⟨hc, rfl⟩

/-- An interrupt call that is no fault is an IRQ lost to I = 1 or an entry (R304, R305, R309). -/
theorem interruptCall_next {k : InterruptCall} {s t : State} (h : interruptCall k s = .next t) :
    s.cycles = 0 ∧ ((k = .irq ∧ s.flag .i = true ∧ t = s) ∨ ∃ vector, t = interruptEntry vector s) := by
  rw [interruptCall_eq] at h
  split_ifs at h with hc hk hi <;> cases h
  · exact ⟨hc, .inl ⟨hk, hi, rfl⟩⟩
  · exact ⟨hc, .inr ⟨_, rfl⟩⟩
  · exact ⟨hc, .inr ⟨_, rfl⟩⟩

/-- A property that the script does not matter to and that each kind of call keeps is kept by every step. -/
theorem step_keeps {P : State → Prop} (script : ∀ s rest, P s → P (s.setDriver rest))
    (idle : ∀ s, s.cycles ≠ 0 → P s → P (countDown s))
    (dispatched : ∀ s u, s.cycles = 0 → P s → dispatch s = .next u → P (countDown u))
    (reset : ∀ s, P s → P (resetCall s)) (entry : ∀ vector s, P s → P (interruptEntry vector s))
    {s t : State} (hs : P s) (h : step s = .next t) : P t := by
  obtain ⟨call, rest, hstep⟩ := step_eq_drive s
  rw [hstep] at h
  have hP := script s rest hs
  cases call with
  | clock =>
    rcases clock_next h with ⟨hc, rfl⟩ | ⟨hc, u, hd, rfl⟩
    · exact idle _ hc hP
    · exact dispatched _ u hc hP hd
  | reset => cases h; exact reset _ hP
  | interrupt k =>
    rcases interruptCall_next h with ⟨-, ⟨-, -, rfl⟩ | ⟨vector, rfl⟩⟩
    · exact hP
    · exact entry vector _ hP

end Sys2Proof.Machine
end

