-- ==== Sys2Proof/Proofs/FlagFrame.lean ====
section
/-! SUPPORT. Which flags each operation can change (10_state.md R31), and the U bit (R28). -/

namespace Sys2Proof.Machine

/-! ## What each flag computation leaves -/

section
variable {sr : Byte}

theorem flagsKept_refl {written : List Flag} : FlagsKept written sr sr := fun _ _ => rfl

theorem flagsKept_setFlag {f : Flag} {on : Bool} : FlagsKept [f] sr (setFlag f on sr) := by
  intro g hg
  rw [getFlag_setFlag, if_neg (List.mem_singleton.not.mp hg)]

theorem flagsKept_setZN {v : Byte} : FlagsKept [.z, .n] sr (setZN v sr) := by
  intro g hg; cases g <;> simp at hg ⊢

theorem flagsKept_sumStatus {a w : Byte} {t : Addr} : FlagsKept [.c, .z, .v, .n] sr (sumStatus a w t sr) := by
  intro g hg; cases g <;> simp at hg ⊢

theorem flagsKept_bitStatus {a m : Byte} : FlagsKept [.z, .v, .n] sr (bitStatus a m sr) := by
  intro g hg; cases g <;> simp at hg ⊢

theorem flagsKept_compareStatus {r m : Byte} {t : Addr} : FlagsKept [.c, .z, .n] sr (compareStatus r m t sr) := by
  intro g hg; cases g <;> simp at hg ⊢

theorem flagsKept_shiftStatus {out : Bool} {t : Addr} : FlagsKept [.c, .z, .n] sr (shiftStatus out t sr) := by
  intro g hg; cases g <;> simp at hg ⊢

theorem flagsKept_brkStatus : FlagsKept [.i, .b] sr (brkStatus sr) := by
  intro g hg; cases g <;> simp at hg ⊢

end

/-! ## SR after the shared operations -/

@[simp] theorem branchIf_sr (cond : Bool) (u : State) : (branchIf cond u).sr = u.sr := by cases cond <;> rfl

@[simp] theorem writeBack_sr (m : Operand) (v : Byte) (u : State) : (writeBack m v u).sr = u.sr := by cases m <;> rfl

@[simp] theorem shiftTo_sr (m : Operand) (out : Bool) (t : Addr) (u : State) :
    (shiftTo m out t u).sr = shiftStatus out t u.sr := by simp [shiftTo]

@[simp] theorem breakEntry_sr (u : State) : (breakEntry u).sr = brkStatus u.sr := by
  simp [breakEntry, enterInterrupt_eq]

/-! ## Every instruction -/

theorem operation_flags (i : Instr) (u : State) : FlagsKept (flagsWritten i.mnemonic) u.sr (operation i u).sr := by
  cases i with
  | adc m | sbc m => simp only [operation, withOperand_eq]; exact flagsKept_sumStatus
  | bit m => simp only [operation, withOperand_eq]; exact flagsKept_bitStatus
  | cmp m | cpx m | cpy m => simp only [operation, withOperand_eq]; exact flagsKept_compareStatus
  | asl m | lsr m | rol m | ror m =>
    simp only [operation, withOperand_eq, shiftTo_sr]; exact flagsKept_shiftStatus
  | and m | ora m | eor m | inc m | dec m | lda m | ldx m | ldy m =>
    simp only [operation, withOperand_eq]; exact flagsKept_setZN
  | inx | iny | dex | dey | pla | tax | tay | txa | tya | tsx => exact flagsKept_setZN
  | clc | cld | cli | clv | sec | sed | sei => exact flagsKept_setFlag
  | brk => rw [operation, breakEntry_sr]; exact flagsKept_brkStatus
  -- PLP and RTI write all eight flags, so there is none left to keep.
  | plp | rti => intro f hf; cases f <;> simp [flagsWritten, Instr.mnemonic] at hf
  | bcc dd | bcs dd | beq dd | bmi dd | bne dd | bpl dd | bvc dd | bvs dd =>
    rw [operation, branchIf_sr]; exact flagsKept_refl
  | jmp m | jsr target | rts | pha | php | sta m | stx m | sty m | txs | nop | nopStar slot | ill slot =>
    exact flagsKept_refl

/-- Settles O26: the shared frame writes no flag, so the flags an instruction writes are its operation's. -/
theorem flagsChangeOnlyAsListed : Obligations.FlagsChangeOnlyAsListed := by
  intro i s t h
  rw [eq_result h, result_sr]
  simpa only [resolve_sr] using operation_flags i (resolve i.operand s)

/-! ## The U bit -/

theorem unusedBit_not_written {i : Instr} (h : ¬(i = .plp ∨ i = .rti)) : Flag.u ∉ flagsWritten i.mnemonic := by
  cases i with
  | plp => exact absurd (.inl rfl) h
  | rti => exact absurd (.inr rfl) h
  | _ => simp [flagsWritten, Instr.mnemonic]

/-- PLP and RTI are the instructions that write U, and they set it (R28, R223, R229). -/
theorem exec_unusedBit {i : Instr} {s t : State} (h : exec i s = .next t) :
    if i = .plp ∨ i = .rti then t.flag .u = true else t.flag .u = s.flag .u := by
  split
  case isTrue hi =>
    rw [eq_result h, State.flag, result_sr]
    rcases hi with rfl | rfl
    · simp [operation]
    · simp [operation, returnFromInterrupt_eq]
  case isFalse hi =>
    exact flagsChangeOnlyAsListed i s t h .u (unusedBit_not_written hi)

theorem exec_keeps_unusedBit {i : Instr} {s t : State} (h : exec i s = .next t) (hu : s.flag .u = true) :
    t.flag .u = true := by
  have := exec_unusedBit h
  split at this
  · exact this
  · exact this.trans hu

theorem interruptEntry_unusedBit (vector : Addr) (s : State) : (interruptEntry vector s).flag .u = true := by
  simp [interruptEntry, enterInterrupt_eq, State.flag]

theorem resetCall_unusedBit (s : State) : (resetCall s).flag .u = true :=
  show getFlag 0x20 .u = true by decide

/-- Settles O23: PLP, RTI, `reset()` and the interrupt entries set U, nothing else writes it, so every step keeps it. -/
theorem unusedBitStaysSet : Obligations.UnusedBitStaysSet := by
  refine ⟨fun s t h hu => ?_, resetCall_unusedBit, fun _ _ _ => exec_unusedBit, fun k s t h hk => ?_⟩
  · have dispatched (s u : State) (hs : s.flag .u = true) (hd : dispatch s = .next u) : (countDown u).flag .u = true :=
      (exec_keeps_unusedBit hd hs : u.flag .u = true)
    exact step_keeps (P := fun s => s.flag .u = true) (fun _ _ hs => hs) (fun _ _ hs => hs)
      (fun s u _ => dispatched s u) (fun s _ => resetCall_unusedBit s) (fun vector s _ => interruptEntry_unusedBit vector s)
      hu h
  · rcases interruptCall_next h with ⟨-, ⟨hirq, hi, -⟩ | ⟨vector, rfl⟩⟩
    · rw [hk hirq] at hi; cases hi
    · exact interruptEntry_unusedBit vector s

end Sys2Proof.Machine
end

