-- ==== Sys2Proof/Proofs/RegisterFrame.lean ====
section
/-! SUPPORT. Which of A, X, Y and SP each operation can change (10_state.md R21, R22, R25). -/

namespace Sys2Proof.Machine

/-! ## A register after a setter -/

section
variable {r : Reg} {s : State}

theorem reg_setA {v : Byte} (h : r ∉ [Reg.a]) : (s.setA v).reg r = s.reg r := by cases r <;> simp at h <;> rfl

theorem reg_setX {v : Byte} (h : r ∉ [Reg.x]) : (s.setX v).reg r = s.reg r := by cases r <;> simp at h <;> rfl

theorem reg_setY {v : Byte} (h : r ∉ [Reg.y]) : (s.setY v).reg r = s.reg r := by cases r <;> simp at h <;> rfl

theorem reg_setSp {v : Byte} (h : r ∉ [Reg.sp]) : (s.setSp v).reg r = s.reg r := by cases r <;> simp at h <;> rfl

@[simp] theorem reg_setPc {v : Addr} : (s.setPc v).reg r = s.reg r := by cases r <;> rfl

@[simp] theorem reg_setSr {v : Byte} : (s.setSr v).reg r = s.reg r := by cases r <;> rfl

@[simp] theorem reg_setFetched {v : Byte} : (s.setFetched v).reg r = s.reg r := by cases r <;> rfl

@[simp] theorem reg_setTemp {v : Addr} : (s.setTemp v).reg r = s.reg r := by cases r <;> rfl

@[simp] theorem reg_store {a : Addr} {v : Byte} : (s.store a v).reg r = s.reg r := by cases r <;> rfl

@[simp] theorem reg_resolve {m : Operand} : (resolve m s).reg r = s.reg r := by cases r <;> simp [State.reg]

@[simp] theorem reg_branchIf {cond : Bool} : (branchIf cond s).reg r = s.reg r := by cases cond <;> cases r <;> rfl

/-- The write-back reaches A in Implied mode only (R180). -/
theorem reg_writeBack {m : Operand} {v : Byte} (h : r ∉ if m.mode = .imp then [Reg.a] else []) :
    (writeBack m v s).reg r = s.reg r := by
  cases m with
  | imp => exact reg_setA h
  | _ => exact reg_store

theorem reg_shiftTo {m : Operand} {out : Bool} {t : Addr} (h : r ∉ if m.mode = .imp then [Reg.a] else []) :
    (shiftTo m out t s).reg r = s.reg r := by
  rw [shiftTo, reg_writeBack h, reg_setSr, reg_setTemp]

theorem reg_push {v : Byte} (h : r ∉ [Reg.sp]) : (push v s).reg r = s.reg r := by rw [push, reg_setSp h, reg_store]

theorem reg_pushWord {w : Addr} (h : r ∉ [Reg.sp]) : (pushWord w s).reg r = s.reg r := by
  rw [pushWord, reg_push h, reg_push h]

theorem reg_pop (h : r ∉ [Reg.sp]) : (pop s).reg r = s.reg r := reg_setSp h

theorem reg_enterInterrupt {ret : Addr} {copy live : Byte} {vector : Addr} (h : r ∉ [Reg.sp]) :
    (enterInterrupt ret copy live vector s).reg r = s.reg r := by
  rw [enterInterrupt, reg_setPc, reg_setSr, reg_push h, reg_pushWord h]

theorem reg_returnFromInterrupt (h : r ∉ [Reg.sp]) : (returnFromInterrupt s).reg r = s.reg r := by
  rw [returnFromInterrupt, reg_setPc, reg_pop h, reg_pop h, reg_setSr, reg_pop h]

end

/-! ## Every instruction -/

theorem operation_reg {i : Instr} {r : Reg} (h : r ∉ registersWritten i) (u : State) :
    (operation i u).reg r = u.reg r := by
  cases i with
  | adc m | sbc m => simp only [operation, withOperand_eq, addCarry, reg_setA h, reg_setSr, reg_setTemp, reg_setFetched]
  | and m | ora m | eor m | lda m =>
    simp only [operation, withOperand_eq, setAZN, reg_setSr, reg_setA h, reg_setFetched]
  | txa | tya => rw [operation, setAZN, reg_setSr, reg_setA h]
  | ldx m => rw [operation, withOperand_eq, setXZN, reg_setSr, reg_setX h, reg_setFetched]
  | tax | tsx | inx | dex => rw [operation, setXZN, reg_setSr, reg_setX h]
  | ldy m => rw [operation, withOperand_eq, setYZN, reg_setSr, reg_setY h, reg_setFetched]
  | tay | iny | dey => rw [operation, setYZN, reg_setSr, reg_setY h]
  | asl m | lsr m | rol m | ror m => simp only [operation, withOperand_eq, reg_shiftTo h, reg_setFetched]
  | inc m | dec m => simp only [operation, withOperand_eq, storeZN, reg_setSr, reg_store, reg_setTemp, reg_setFetched]
  | bit m | cmp m | cpx m | cpy m =>
    simp only [operation, withOperand_eq, testBits, compareWith, reg_setSr, reg_setTemp, reg_setFetched]
  | bcc dd | bcs dd | beq dd | bmi dd | bne dd | bpl dd | bvc dd | bvs dd => exact reg_branchIf
  | jmp m => exact reg_setPc
  | sta m | stx m | sty m => exact reg_store
  | txs => exact reg_setSp h
  | pha | php => exact reg_push h
  | pla =>
    obtain ⟨ha, hsp⟩ : r ∉ [Reg.a] ∧ r ∉ [Reg.sp] := by simpa [registersWritten] using h
    rw [operation, setAZN, reg_setSr, reg_setA ha, reg_pop hsp]
  | plp => rw [operation, reg_setSr, reg_pop h]
  | jsr target => rw [operation, reg_setPc, reg_pushWord h]
  | rts => rw [operation, reg_setPc, reg_pop h, reg_pop h]
  | brk => exact reg_enterInterrupt h
  | rti => exact reg_returnFromInterrupt h
  | clc | cld | cli | clv | sec | sed | sei => exact reg_setSr
  | nop | nopStar slot | ill slot => rfl

/-- Settles O27: neither the resolver nor the extra cycle writes a register, so the registers an instruction writes are
its operation's. -/
theorem registersChangeOnlyAsListed : Obligations.RegistersChangeOnlyAsListed := by
  intro i s t h r hr
  rw [eq_result h, result_reg, operation_reg hr, reg_resolve]

end Sys2Proof.Machine
end

