-- ==== Sys2Proof/Proofs/LatchFrame.lean ====
section
/-! SUPPORT. Which of the latches `temp`, `addr_rel`, `addr_abs` and `fetched` each operation can change (10_state.md R33
to R36). -/

namespace Sys2Proof.Machine

/-! ## The latches after the shared operations -/

section
variable (m : Operand) (u : State)

@[simp] theorem writeBack_addrAbs (v : Byte) : (writeBack m v u).addrAbs = u.addrAbs := by cases m <;> rfl

@[simp] theorem writeBack_addrRel (v : Byte) : (writeBack m v u).addrRel = u.addrRel := by cases m <;> rfl

@[simp] theorem shiftTo_addrAbs (out : Bool) (t : Addr) : (shiftTo m out t u).addrAbs = u.addrAbs := by simp [shiftTo]

@[simp] theorem shiftTo_addrRel (out : Bool) (t : Addr) : (shiftTo m out t u).addrRel = u.addrRel := by simp [shiftTo]

@[simp] theorem writeBack_cycles (v : Byte) : (writeBack m v u).cycles = u.cycles := by cases m <;> rfl

@[simp] theorem shiftTo_cycles (out : Bool) (t : Addr) : (shiftTo m out t u).cycles = u.cycles := by simp [shiftTo]

@[simp] theorem branchIf_addrRel (cond : Bool) : (branchIf cond u).addrRel = u.addrRel := by cases cond <;> rfl

@[simp] theorem branchIf_temp (cond : Bool) : (branchIf cond u).temp = u.temp := by cases cond <;> rfl

@[simp] theorem branchIf_fetched (cond : Bool) : (branchIf cond u).fetched = u.fetched := by cases cond <;> rfl

theorem resolve_addrRel (h : m.mode ≠ .rel) : (resolve m u).addrRel = u.addrRel := by
  cases m with
  | rel dd => exact absurd rfl h
  | _ => rfl

end

/-! ## Every instruction -/

/-- A branch is `Branch(cond)` on the flag and the value its rule names (R200 to R208). -/
theorem operation_branch {i : Instr} {test : Flag × Bool} (h : branchTest i.mnemonic = some test) (u : State) :
    operation i u = branchIf (u.flag test.1 == test.2) u := by
  cases i with
  | bcc dd | bcs dd | beq dd | bmi dd | bne dd | bpl dd | bvc dd | bvs dd => cases h; rfl
  | _ => cases h

/-- What every instruction but a branch leaves: `fetched` unless the handler calls `fetch()`, `temp` unless R34 lists it,
and always `addr_abs`, `addr_rel` and `cycles`. -/
theorem operation_latches {i : Instr} (h : branchTest i.mnemonic = none) (u : State) :
    (callsFetch i.mnemonic = false → (operation i u).fetched = u.fetched) ∧
    (writesTemp i.mnemonic = false → (operation i u).temp = u.temp) ∧
    (operation i u).addrAbs = u.addrAbs ∧ (operation i u).addrRel = u.addrRel ∧
    (operation i u).cycles = u.cycles := by
  cases i with
  | bcc dd | bcs dd | beq dd | bmi dd | bne dd | bpl dd | bvc dd | bvs dd => cases h
  | asl m | lsr m | rol m | ror m => simp [operation, withOperand_eq, callsFetch, writesTemp, Instr.mnemonic]
  | adc m | sbc m | bit m | cmp m | cpx m | cpy m | inc m | dec m =>
    simp only [operation, withOperand_eq]; exact ⟨nofun, nofun, rfl, rfl, rfl⟩
  | and m | ora m | eor m | lda m | ldx m | ldy m =>
    simp only [operation, withOperand_eq]; exact ⟨nofun, fun _ => rfl, rfl, rfl, rfl⟩
  -- Not by `rfl`: the pulls and the vector reads would be computed.
  | pha | php | pla | plp | jsr target | rts => simp [operation, push, pushWord, pop, setAZN]
  | brk | rti => simp [operation, breakEntry, enterInterrupt_eq, returnFromInterrupt_eq]
  | _ => exact ⟨fun _ => rfl, fun _ => rfl, rfl, rfl, rfl⟩

theorem operation_temp {i : Instr} (h : writesTemp i.mnemonic = false) (u : State) :
    (operation i u).temp = u.temp := by
  cases hb : branchTest i.mnemonic with
  | some test => rw [operation_branch hb, branchIf_temp]
  | none => obtain ⟨-, htemp, -⟩ := operation_latches hb u; exact htemp h

theorem operation_addrRel (i : Instr) (u : State) : (operation i u).addrRel = u.addrRel := by
  cases hb : branchTest i.mnemonic with
  | some test => rw [operation_branch hb, branchIf_addrRel]
  | none => obtain ⟨-, -, -, hrel, -⟩ := operation_latches hb u; exact hrel

theorem operation_fetched {i : Instr} (h : callsFetch i.mnemonic = false) (u : State) :
    (operation i u).fetched = u.fetched := by
  cases hb : branchTest i.mnemonic with
  | some test => rw [operation_branch hb, branchIf_fetched]
  | none => obtain ⟨hfetched, -⟩ := operation_latches hb u; exact hfetched h

theorem operation_addrAbs {i : Instr} (h : branchTest i.mnemonic = none) (u : State) :
    (operation i u).addrAbs = u.addrAbs := by
  obtain ⟨-, -, habs, -, -⟩ := operation_latches h u; exact habs

theorem operation_cycles {i : Instr} (h : branchTest i.mnemonic = none) (u : State) :
    (operation i u).cycles = u.cycles := by
  obtain ⟨-, -, -, -, hcycles⟩ := operation_latches h u; exact hcycles

/-- A branch is Relative (R201 to R208). -/
theorem mode_of_branchTest {i : Instr} {test : Flag × Bool} (h : branchTest i.mnemonic = some test) :
    i.operand.mode = .rel := by
  cases i with
  | bcc dd | bcs dd | beq dd | bmi dd | bne dd | bpl dd | bvc dd | bvs dd => rfl
  | _ => cases h

theorem effectiveAddress_of_imp {m : Operand} (h : m.mode = .imp) (s : State) : effectiveAddress m s = s.addrAbs := by
  cases m with
  | imp => rfl
  | _ => cases h

theorem effectiveAddress_of_rel {m : Operand} (h : m.mode = .rel) (s : State) : effectiveAddress m s = s.addrAbs := by
  cases m with
  | rel dd => rfl
  | _ => cases h

/-- A branch not taken leaves `addr_abs` to its resolver, which leaves it (R145, R200). -/
theorem result_addrAbs_of_not_taken {i : Instr} {f : Flag} {on : Bool} (h : branchTest i.mnemonic = some (f, on))
    {s : State} (hf : s.flag f ≠ on) : (result i s).addrAbs = s.addrAbs := by
  have hcond : ((resolve i.operand s).flag f == on) = false := by rw [resolve_flag]; exact beq_eq_false_iff_ne.mpr hf
  rw [result_addrAbs, operation_branch h, hcond, branchIf_false, resolve_addrAbs,
    effectiveAddress_of_rel (mode_of_branchTest h)]

/-- No branch is Implied, so only the resolver can write `addr_abs` there, and it does not (R140). -/
theorem result_addrAbs_of_imp {i : Instr} (h : i.operand.mode = .imp) (s : State) :
    (result i s).addrAbs = s.addrAbs := by
  cases hb : branchTest i.mnemonic with
  | some test => rw [mode_of_branchTest hb] at h; cases h
  | none => rw [result_addrAbs, operation_addrAbs hb, resolve_addrAbs, effectiveAddress_of_imp h]

/-- Settles O29: no instruction writes `opcode`, the policy or the script; each latch is written by the resolver or by
the operation, in the cases the rules name. -/
theorem latchesAndParametersKept : Obligations.LatchesAndParametersKept := by
  intro i s t _ h
  obtain ⟨hopcode, hcfg, hdriver⟩ := unwritten_eq_iff.mp (exec_unwritten h)
  refine ⟨hopcode, hcfg, hdriver, ?_⟩
  rw [eq_result h]
  refine ⟨fun hw => ?_, fun hm => ?_, fun hm => result_addrAbs_of_imp hm s,
    fun f on hb hf => result_addrAbs_of_not_taken hb hf, fun hm hc => ?_⟩
  · rw [result_temp, operation_temp hw, resolve_temp]
  · rw [result_addrRel, operation_addrRel, resolve_addrRel _ _ hm]
  · rw [result_fetched, operation_fetched hc, resolve_fetched, if_neg hm]

end Sys2Proof.Machine
end

