-- ==== Sys2Proof/Proofs/Cycles.lean ====
section
/-! SUPPORT. The cycles an instruction adds to its base count (40_fetch_sequencer.md R123; 45_branch_jump.md R200), and that
the sum is at most 8 for every slot of the table (10_state.md R38). -/

namespace Sys2Proof.Machine

/-- A branch adds nothing if not taken, 1 in the page of PC, 2 in another (R200). -/
theorem branchIf_cycles (cond : Bool) (u : State) :
    (branchIf cond u).cycles =
      u.cycles + if cond then (if hiByte (u.pc + u.addrRel) = hiByte u.pc then 1 else 2) else 0 := by
  cases cond with
  | false => simp
  | true =>
    by_cases h : hiByte (u.pc + u.addrRel) = hiByte u.pc
    · simp [branchIf, h]
    · simp [branchIf, h, BitVec.add_assoc]

/-- The operand of a branch is its displacement, and its handler returns 0 (R200). -/
theorem operand_of_branchTest {i : Instr} {test : Flag × Bool} (h : branchTest i.mnemonic = some test) :
    ∃ dd, i.operand = .rel dd ∧ paysPageCycle i.mnemonic = false := by
  cases i with
  | bcc dd | bcs dd | beq dd | bmi dd | bne dd | bpl dd | bvc dd | bvs dd => exact ⟨dd, rfl, rfl⟩
  | _ => cases h

/-- The cycles after an instruction: those before and its extra cycles (R351). -/
theorem result_cycles (i : Instr) (s : State) : (result i s).cycles = s.cycles + BitVec.ofNat 8 (extraCycles i s) := by
  cases hb : branchTest i.mnemonic with
  | none =>
    simp only [result, addExtraCycle_eq, operation_cycles hb, resolve_cycles, extraCycles, hb]
    cases crossesPage i.operand s <;> cases paysPageCycle i.mnemonic <;> rfl
  | some test =>
    obtain ⟨dd, hdd, hpays⟩ := operand_of_branchTest hb
    simp only [result, addExtraCycle_eq, hpays, Bool.and_false, Bool.false_eq_true, if_false, add_zero,
      operation_branch hb, branchIf_cycles, extraCycles, hb, hdd, branchCycles,
       Operand.byte_rel, resolve_rel, State.flag, beq_iff_eq]
    split_ifs <;> rfl

theorem extraCycles_le_two (i : Instr) (s : State) : extraCycles i s ≤ 2 := by
  unfold extraCycles branchCycles
  split <;> split_ifs <;> decide

/-- Only the branches and the handlers that return 1 add a cycle (R127, R200). -/
theorem extraCycles_eq_zero {i : Instr} (hb : branchTest i.mnemonic = none) (hp : paysPageCycle i.mnemonic = false)
    (s : State) : extraCycles i s = 0 := by
  simp [extraCycles, hb, hp]

/-- The slots whose instruction can add cycles have a base count of at most 6. -/
theorem base_le_six_of_extra (op : Byte) :
    (descriptor op).base ≤ 6 ∨
      branchTest (descriptor op).mnemonic = none ∧ paysPageCycle (descriptor op).mnemonic = false := by
  have := forall_slot (f := fun op => decide ((descriptor op).base ≤ 6) ||
    ((branchTest (descriptor op).mnemonic).isNone && !paysPageCycle (descriptor op).mnemonic)) (by decide +kernel) op
  simpa using this

/-- A dispatch leaves 2 to 8 in `cycles` before the clock takes one off. -/
theorem dispatch_cycles {s u : State} (h : dispatch s = .next u) : 2 ≤ u.cycles ∧ u.cycles ≤ 8 := by
  have hc : u.cycles = (descriptor (s.load s.pc)).base + BitVec.ofNat 8 (extraCycles (instrAt s) (afterFetch s)) := by
    rw [eq_result h, result_cycles, afterFetch_eq]
  have hle := extraCycles_le_two (instrAt s) (afterFetch s)
  have hbase := base_ge (s.load s.pc)
  have hextra : (descriptor (s.load s.pc)).base ≤ 6 ∨
      (descriptor (s.load s.pc)).base ≤ 8 ∧ extraCycles (instrAt s) (afterFetch s) = 0 := by
    refine (base_le_six_of_extra (s.load s.pc)).imp_right fun ⟨hb, hp⟩ => ⟨base_le _, extraCycles_eq_zero ?_ ?_ _⟩
    · rw [instrAt, decodeAt_mnemonic, hb]
    · rw [instrAt, decodeAt_mnemonic, hp]
  rw [hc]
  bv_omega

end Sys2Proof.Machine
end

