-- ==== Sys2Proof/Proofs/Invariant.lean ====
section
/-! SUPPORT. Every call by the driver keeps memory canonical (log 2), `cycles` at most 8 (10_state.md R38) and `addr_rel`
a sign-extended byte (R36). -/

namespace Sys2Proof.Machine

/-! ## Memory -/

theorem wf_writeBack {u : State} (h : u.mem.wf = true) (m : Operand) (v : Byte) : (writeBack m v u).mem.wf = true := by
  cases m with
  | imp => exact h
  | _ => exact wf_store h ..

theorem wf_shiftTo {u : State} (h : u.mem.wf = true) (m : Operand) (out : Bool) (t : Addr) :
    (shiftTo m out t u).mem.wf = true :=
  wf_writeBack (by exact h) ..

theorem wf_storeZN {u : State} (h : u.mem.wf = true) (t : Addr) : (storeZN t u).mem.wf = true := Memory.wf_write h ..

theorem wf_branchIf {u : State} (h : u.mem.wf = true) (cond : Bool) : (branchIf cond u).mem.wf = true := by
  cases cond <;> exact h

theorem wf_operation {u : State} (h : u.mem.wf = true) (i : Instr) : (operation i u).mem.wf = true := by
  cases i with
  | sta m | stx m | sty m => exact wf_store h ..
  | inc m | dec m => simp only [operation, withOperand_eq]; exact wf_storeZN (by exact h) _
  | asl m | lsr m | rol m | ror m => simp only [operation, withOperand_eq]; exact wf_shiftTo (by exact h) ..
  | pha | php => exact wf_push h _
  | jsr target => exact wf_pushWord h _
  | brk => exact wf_enterInterrupt h ..
  | rti => rw [operation, returnFromInterrupt_eq]; exact h
  | pla | plp | rts => simpa [operation, setAZN, pop] using h
  | bcc dd | bcs dd | beq dd | bmi dd | bne dd | bpl dd | bvc dd | bvs dd => exact wf_branchIf h _
  | adc m | sbc m | and m | ora m | eor m | bit m | cmp m | cpx m | cpy m | lda m | ldx m | ldy m =>
    simp only [operation, withOperand_eq]; exact h
  | _ => exact h

/-! ## `addr_rel` -/

/-- The Relative resolver writes a sign-extended byte, and no other writes `addr_rel` (R36, R145). -/
theorem resolve_addrRel_sext {s : State} (h : s.addrRel = sext (loByte s.addrRel)) (m : Operand) :
    (resolve m s).addrRel = sext (loByte (resolve m s).addrRel) := by
  cases m with
  | rel dd => rw [resolve_rel, loByte_sext]
  | _ => exact h

/-! ## The calls of the driver -/

/-- The last cycle taken off leaves 0, not a wrapped count (R120). -/
theorem sub_one_le_eight {c : Byte} (h0 : c ≠ 0) (h : c ≤ 8) : c - 1 ≤ 8 := by bv_omega

theorem invariant_countDown {s : State} (hc : s.cycles ≠ 0) (h : Invariant s) : Invariant (countDown s) := by
  obtain ⟨hmem, hle, hrel⟩ := h
  exact ⟨hmem, sub_one_le_eight hc hle, hrel⟩

theorem invariant_dispatch {s u : State} (h : Invariant s) (hd : dispatch s = .next u) : Invariant u := by
  obtain ⟨hmem, -, hrel⟩ := h
  obtain ⟨-, hle⟩ := dispatch_cycles hd
  refine ⟨?_, hle, ?_⟩
  · rw [eq_result hd, result_mem]
    exact wf_operation (by rwa [resolve_mem]) _
  · rw [eq_result hd, result_addrRel, operation_addrRel]
    exact resolve_addrRel_sext (by exact hrel) _

theorem invariant_reset {s : State} (h : s.mem.wf = true) : Invariant (resetCall s) := 
  ⟨h, show (8 : Byte) ≤ 8 by decide, show (0 : Addr) = sext (loByte 0) by decide⟩

theorem invariant_interruptEntry {s : State} (h : Invariant s) (vector : Addr) : Invariant (interruptEntry vector s) := by
  obtain ⟨hmem, -, hrel⟩ := h
  refine ⟨?_, ?_, ?_⟩
  · rw [interruptEntry, State.setCycles_mem]
    exact wf_enterInterrupt hmem ..
  · rw [interruptEntry, State.setCycles_cycles]
    decide
  · rw [interruptEntry, State.setCycles_addrRel, enterInterrupt_eq]
    exact hrel

/-- Settles O21: the reset state is `reset()` on a state whose memory is blank. -/
theorem invariantHoldsAtReset : Obligations.InvariantHoldsAtReset :=
  invariant_reset (s := State.construct [] Config.default) Memory.wf_nil

/-- Settles O22: each call keeps the invariant; a dispatch leaves at least 2 cycles, so taking one off does not wrap. -/
theorem stepKeepsTheInvariant : Obligations.StepKeepsTheInvariant := by
  intro s t hs h
  refine step_keeps (P := Invariant) (fun _ _ hs => hs) (fun _ => invariant_countDown) (fun s u _ hs hd => ?_)
    (fun s hs => invariant_reset hs.1) (fun vector s hs => invariant_interruptEntry hs vector) hs h
  obtain ⟨hge, -⟩ := dispatch_cycles hd
  exact invariant_countDown (by bv_omega) (invariant_dispatch hs hd)

end Sys2Proof.Machine
end

