-- ==== Sys2Proof/Proofs/LatchesUnobservable.lean ====
section
/-! SUPPORT. States that differ only in the latches step to states that differ only in the latches (10_state.md R39). The
resolver writes the latches that the operation then reads, so after it the two states agree on those as well
(`AgreeResolved`); every operation keeps `SameButLatches` between two such states. -/

namespace Sys2Proof.Machine

theorem sameButLatches_iff {s t : State} :
    SameButLatches s t ↔ ∃ fetched temp addrAbs addrRel opcode, t =
      { s with fetched := fetched, temp := temp, addrAbs := addrAbs, addrRel := addrRel, opcode := opcode } :=
  ⟨fun h => ⟨_, _, _, _, _, h⟩, fun ⟨_, _, _, _, _, h⟩ => by rw [h, SameButLatches]⟩

/-- A function that answers alike, up to the latches, when only they are replaced, answers alike on any such pair. -/
theorem SameButLatches.map {s t : State} (h : SameButLatches s t) {f : State → State}
    (hf : ∀ s fetched temp addrAbs addrRel opcode, SameButLatches (f s)
      (f { s with fetched := fetched, temp := temp, addrAbs := addrAbs, addrRel := addrRel, opcode := opcode })) :
    SameButLatches (f s) (f t) := by
  obtain ⟨_, _, _, _, _, rfl⟩ := sameButLatches_iff.mp h
  exact hf ..

theorem SameButLatches.load_eq {s t : State} (h : SameButLatches s t) (a : Addr) : s.load a = t.load a := by
  obtain ⟨_, _, _, _, _, rfl⟩ := sameButLatches_iff.mp h
  rfl

theorem SameButLatches.flag_eq {s t : State} (h : SameButLatches s t) (f : Flag) : s.flag f = t.flag f := by
  rw [h]; rfl

theorem SameButLatches.pc_eq {s t : State} (h : SameButLatches s t) : s.pc = t.pc := by rw [h]

theorem SameButLatches.sr_eq {s t : State} (h : SameButLatches s t) : s.sr = t.sr := by rw [h]

/-- The states agree on all but the latches, and on those that the resolver of the mode has written: `fetched` in Implied
mode (R140), `addr_rel` in Relative mode (R145), `addr_abs` in every other (R141 to R151). -/
def AgreeResolved (m : Operand) (u v : State) : Prop :=
  SameButLatches u v ∧
    match m.mode with
    | .imp => u.fetched = v.fetched
    | .rel => u.addrRel = v.addrRel
    | _ => u.addrAbs = v.addrAbs

theorem agreeResolved_resolve {s t : State} (h : SameButLatches s t) (m : Operand) :
    AgreeResolved m (resolve m s) (resolve m t) := by
  obtain ⟨_, _, _, _, _, rfl⟩ := sameButLatches_iff.mp h
  cases m <;> exact ⟨rfl, rfl⟩

theorem AgreeResolved.addrAbs_eq {m : Operand} {u v : State} (h : AgreeResolved m u v) (himp : m.mode ≠ .imp)
    (hrel : m.mode ≠ .rel) : u.addrAbs = v.addrAbs := by
  obtain ⟨-, hm⟩ := h
  split at hm
  · contradiction
  · contradiction
  · exact hm

/-- The operand fetched is the same (R125). -/
theorem fetchOperand_agree {m : Operand} {u v : State} (h : AgreeResolved m u v) (hrel : m.mode ≠ .rel) :
    (fetchOperand m u).fetched = (fetchOperand m v).fetched := by
  obtain ⟨hsame, hm⟩ := h
  cases m with
  | imp => exact hm
  | imm nn => rfl
  | rel dd => exact absurd rfl hrel
  | _ => exact (congrArg u.load hm).trans (hsame.load_eq _)

theorem agreeResolved_setFetched {m : Operand} {u v : State} (h : AgreeResolved m u v) (b : Byte) :
    AgreeResolved m (u.setFetched b) (v.setFetched b) := by
  obtain ⟨hsame, hm⟩ := h
  refine ⟨hsame.map fun _ _ _ _ _ _ => rfl, ?_⟩
  cases m with
  | imp => rfl
  | _ => exact hm

theorem withOperand_same {m : Operand} {u v : State} (h : AgreeResolved m u v) (hrel : m.mode ≠ .rel)
    {op : Byte → State → State} (hop : ∀ b u v, AgreeResolved m u v → SameButLatches (op b u) (op b v)) :
    SameButLatches (withOperand m op u) (withOperand m op v) := by
  rw [withOperand_eq, withOperand_eq, fetchOperand_agree h hrel]
  exact hop _ _ _ (agreeResolved_setFetched h _)

/-! ## The operations -/

theorem shiftTo_same {m : Operand} {u v : State} (h : AgreeResolved m u v) (hrel : m.mode ≠ .rel) (out : Bool)
    (t : Addr) : SameButLatches (shiftTo m out t u) (shiftTo m out t v) := by
  obtain ⟨hsame, hm⟩ := h
  cases m with
  | imp => exact hsame.map fun _ _ _ _ _ _ => rfl
  | rel dd => exact absurd rfl hrel
  | _ =>
    obtain ⟨_, _, _, _, _, rfl⟩ := sameButLatches_iff.mp hsame
    cases hm
    rfl

theorem storeZN_same {u v : State} (h : SameButLatches u v) (habs : u.addrAbs = v.addrAbs) (t : Addr) :
    SameButLatches (storeZN t u) (storeZN t v) := by
  obtain ⟨_, _, _, _, _, rfl⟩ := sameButLatches_iff.mp h
  cases habs
  rfl

theorem branchIf_same {u v : State} (h : SameButLatches u v) (hrel : u.addrRel = v.addrRel) (cond : Bool) :
    SameButLatches (branchIf cond u) (branchIf cond v) := by
  cases cond with
  | false => exact h
  | true =>
    obtain ⟨_, _, _, _, _, rfl⟩ := sameButLatches_iff.mp h
    cases hrel
    rfl

theorem enterInterrupt_same {u v : State} (h : SameButLatches u v) (ret : Addr) (copy live : Byte) (vector : Addr) :
    SameButLatches (enterInterrupt ret copy live vector u) (enterInterrupt ret copy live vector v) := by
  obtain ⟨_, _, _, _, _, rfl⟩ := sameButLatches_iff.mp h
  simp only [SameButLatches, enterInterrupt_eq, push_eq, pushWord_eq, State.readVector, State.load]

theorem breakEntry_same {u v : State} (h : SameButLatches u v) : SameButLatches (breakEntry u) (breakEntry v) := by
  rw [breakEntry, breakEntry, h.sr_eq, h.pc_eq]
  exact enterInterrupt_same h ..

theorem interruptEntry_same {u v : State} (h : SameButLatches u v) (vector : Addr) :
    SameButLatches (interruptEntry vector u) (interruptEntry vector v) := by
  rw [interruptEntry, interruptEntry, h.sr_eq, h.pc_eq]
  exact (enterInterrupt_same h ..).map (f := State.setCycles 7) fun _ _ _ _ _ _ => rfl

theorem returnFromInterrupt_same {u v : State} (h : SameButLatches u v) :
    SameButLatches (returnFromInterrupt u) (returnFromInterrupt v) := by
  obtain ⟨_, _, _, _, _, rfl⟩ := sameButLatches_iff.mp h
  rw [returnFromInterrupt_eq, returnFromInterrupt_eq]
  rfl

/-- A well-formed instruction is not of a mode that its mnemonic lacks. -/
theorem mode_ne_of_wellFormed {i : Instr} {mode : Mode} (hwf : i.wellFormed = true)
    (h : i.mnemonic.modes.contains mode = false) : i.operand.mode ≠ mode := by
  rintro rfl
  rw [Instr.wellFormed, h] at hwf
  cases hwf

theorem operation_same {i : Instr} {u v : State} (hwf : i.wellFormed = true) (h : AgreeResolved i.operand u v) :
    SameButLatches (operation i u) (operation i v) := by
  cases i with
  | adc m | sbc m | and m | ora m | eor m | bit m | cmp m | cpx m | cpy m | lda m | ldx m | ldy m =>
    simp only [operation]
    refine withOperand_same h (mode_ne_of_wellFormed hwf rfl) fun _ _ _ ⟨hsame, _⟩ => ?_
    obtain ⟨_, _, _, _, _, rfl⟩ := sameButLatches_iff.mp hsame
    rfl
  | asl m | lsr m =>
    have hrel := mode_ne_of_wellFormed (mode := .rel) hwf rfl
    simp only [operation]
    exact withOperand_same h hrel fun _ _ _ h => shiftTo_same h hrel ..
  | rol m | ror m =>
    have hrel := mode_ne_of_wellFormed (mode := .rel) hwf rfl
    simp only [operation]
    refine withOperand_same h hrel fun _ _ _ h => ?_
    rw [h.1.sr_eq]
    exact shiftTo_same h hrel ..
  | inc m | dec m =>
    have hrel := mode_ne_of_wellFormed (mode := .rel) hwf rfl
    have himp := mode_ne_of_wellFormed (mode := .imp) hwf rfl
    simp only [operation]
    exact withOperand_same h hrel fun _ _ _ h => storeZN_same h.1 (h.addrAbs_eq himp hrel) _
  | sta m | stx m | sty m | jmp m | jsr target =>
    have habs := h.addrAbs_eq (mode_ne_of_wellFormed hwf rfl) (mode_ne_of_wellFormed hwf rfl)
    obtain ⟨_, _, _, _, _, rfl⟩ := sameButLatches_iff.mp h.1
    cases habs
    rfl
  | bcc dd | bcs dd | beq dd | bmi dd | bne dd | bpl dd | bvc dd | bvs dd =>
    obtain ⟨hsame, hrel⟩ := h
    simp only [operation, hsame.flag_eq]
    exact branchIf_same hsame hrel _
  | brk => exact breakEntry_same h.1
  | rti => exact returnFromInterrupt_same h.1
  | _ =>
    obtain ⟨_, _, _, _, _, rfl⟩ := sameButLatches_iff.mp h.1
    rfl

/-! ## The calls of the driver -/

theorem crossesPage_same {s t : State} (h : SameButLatches s t) (m : Operand) : crossesPage m s = crossesPage m t := by
  obtain ⟨_, _, _, _, _, rfl⟩ := sameButLatches_iff.mp h
  cases m <;> rfl

theorem result_same {i : Instr} {s t : State} (hwf : i.wellFormed = true) (h : SameButLatches s t) :
    SameButLatches (result i s) (result i t) := by
  have hop := operation_same hwf (agreeResolved_resolve h i.operand)
  rw [result, result, crossesPage_same h, addExtraCycle_eq, addExtraCycle_eq]
  obtain ⟨_, _, _, _, _, hop⟩ := sameButLatches_iff.mp hop
  rw [hop, SameButLatches]

/-- A dispatch decodes the same bytes and is refused under the same policy (R125, R272). -/
theorem dispatch_same {s t s' : State} (h : SameButLatches s t) (hs : dispatch s = .next s') :
    ∃ t', dispatch t = .next t' ∧ SameButLatches s' t' := by
  obtain ⟨hruns, rfl⟩ := exec_next_iff.mp hs
  have hfetch : SameButLatches (afterFetch s) (afterFetch t) := h.map (f := afterFetch) fun _ _ _ _ _ _ => rfl
  have hinstr : instrAt t = instrAt s := by
    obtain ⟨_, _, _, _, _, rfl⟩ := sameButLatches_iff.mp h
    rfl
  have hcfg : (afterFetch t).cfg = (afterFetch s).cfg := by rw [hfetch]
  refine ⟨result (instrAt s) (afterFetch t), ?_, result_same (instrAt_wellFormed s) hfetch⟩
  rw [dispatch, hinstr, exec_next_iff, hcfg]
  exact ⟨hruns, rfl⟩

theorem clock_same {s t s' : State} (h : SameButLatches s t) (hs : clock s = .next s') :
    ∃ t', clock t = .next t' ∧ SameButLatches s' t' := by
  have hcycles : t.cycles = s.cycles := by rw [h]
  rcases clock_next hs with ⟨hc, rfl⟩ | ⟨hc, u, hd, rfl⟩
  · exact ⟨countDown t, clock_idle (hcycles ▸ hc), h.map fun _ _ _ _ _ _ => rfl⟩
  · obtain ⟨u', hd', hu⟩ := dispatch_same h hd
    refine ⟨countDown u', ?_, hu.map fun _ _ _ _ _ _ => rfl⟩
    rw [clock_dispatch (hcycles ▸ hc), hd']

/-- The entry depends on `cycles` and I alone (R304, R305, R309). -/
theorem interruptCall_same {k : InterruptCall} {s t s' : State} (h : SameButLatches s t)
    (hs : interruptCall k s = .next s') : ∃ t', interruptCall k t = .next t' ∧ SameButLatches s' t' := by
  have hcycles : t.cycles = s.cycles := by rw [h]
  rw [interruptCall_eq] at hs ⊢
  rw [hcycles, ← h.flag_eq]
  split_ifs at hs ⊢ with hc hk hi <;> cases hs
  · exact ⟨t, rfl, h⟩
  · exact ⟨_, rfl, interruptEntry_same h _⟩
  · exact ⟨_, rfl, interruptEntry_same h _⟩

theorem drive_same {call : DriverCall} {s t s' : State} (h : SameButLatches s t) (hs : drive call s = .next s') :
    ∃ t', drive call t = .next t' ∧ SameButLatches s' t' := by
  cases call with
  | clock => exact clock_same h hs
  | reset => cases hs; exact ⟨resetCall t, rfl, h.map fun _ _ _ _ _ _ => rfl⟩
  | interrupt k => exact interruptCall_same h hs

/-- Settles O24: the two states make the same call; a call that dispatches writes each latch its operation reads. -/
theorem latchesAreUnobservable : Obligations.LatchesAreUnobservable := by
  intro s t s' h hs
  have hdriver : t.driver = s.driver := by rw [h]
  cases hd : s.driver with
  | nil =>
    rw [step_clock hd] at hs
    rw [step_clock (hdriver.trans hd)]
    exact clock_same h hs
  | cons call rest =>
    rw [step_scripted hd] at hs
    rw [step_scripted (hdriver.trans hd)]
    exact drive_same (h.map fun _ _ _ _ _ _ => rfl) hs

end Sys2Proof.Machine
end

