-- ==== Sys2Proof/Proofs/DecimalFlag.lean ====
section
/-! SUPPORT. Setting D commutes with the resolver, `fetch()` and the sum of ADC and SBC (10_state.md R30; R160). -/

namespace Sys2Proof.Machine

/-- The state with D set to `on`. -/
def State.setDecimal (on : Bool) (s : State) : State := s.setSr (setFlag .d on s.sr)

theorem carryWord_setFlag_d (on : Bool) (sr : Byte) : carryWord (setFlag .d on sr) = carryWord sr := by
  simp [carryWord]

theorem sumStatus_setFlag_d (a w : Byte) (t : Addr) (on : Bool) (sr : Byte) :
    sumStatus a w t (setFlag .d on sr) = setFlag .d on (sumStatus a w t sr) :=
  status_ext fun f => by cases f <;> simp

/-- The sum reads C alone, and writes no D (R160, R161). -/
theorem addCarry_setDecimal (w : Byte) (on : Bool) (s : State) :
    addCarry w (s.setDecimal on) = (addCarry w s).setDecimal on := by
  have hsum : sumWord s.a w (setFlag .d on s.sr) = sumWord s.a w s.sr := by
    rw [sumWord, sumWord, carryWord_setFlag_d]
  simp only [addCarry, State.setDecimal, State.setSr_a, State.setSr_sr, hsum, sumStatus_setFlag_d]
  rfl

theorem resolve_setDecimal (m : Operand) (on : Bool) (s : State) :
    resolve m (s.setDecimal on) = (resolve m s).setDecimal on := by
  cases m <;> rfl

theorem fetchOperand_setDecimal (m : Operand) (on : Bool) (s : State) :
    fetchOperand m (s.setDecimal on) = (fetchOperand m s).setDecimal on := by
  cases m <;> rfl

theorem crossesPage_setDecimal (m : Operand) (on : Bool) (s : State) :
    crossesPage m (s.setDecimal on) = crossesPage m s := by
  cases m <;> rfl

/-- The frame of ADC and SBC around an addend computed from the operand. -/
theorem runSlot_addCarry_setDecimal (m : Operand) (addend : Byte → Byte) (on : Bool) {s t : State}
    (h : runSlot m true (withOperand m fun v => addCarry (addend v)) s = .next t) :
    runSlot m true (withOperand m fun v => addCarry (addend v)) (s.setDecimal on) = .next (t.setDecimal on) := by
  rw [runSlot_eq] at h ⊢
  cases h
  rw [crossesPage_setDecimal, resolve_setDecimal, withOperand, fetchOperand_setDecimal, addCarry_setDecimal,
    addExtraCycle_eq, addExtraCycle_eq]
  rfl

/-- Settles O35: ADC and SBC are the same frame, with the operand or its complement as the addend (R162). -/
theorem decimalFlagHasNoNumericEffect : Obligations.DecimalFlagHasNoNumericEffect :=
  fun m _ _ on => ⟨runSlot_addCarry_setDecimal m id on, runSlot_addCarry_setDecimal m (· ^^^ 0xFF) on⟩

end Sys2Proof.Machine
end

