-- ==== Sys2Proof/Proofs/InitialStates.lean ====
section
/-! SUPPORT. The state at construction (10_state.md R43) and after `reset()` (R44). -/

namespace Sys2Proof.Machine

/-- Settles O11: at construction the script is empty and `cycles` is 0, so a step is a `clock()` that dispatches. -/
theorem constructionIsAllZero : Obligations.ConstructionIsAllZero := by
  intro mem0 cfg s
  refine ⟨rfl, rfl, rfl, rfl, rfl, rfl, rfl, rfl, rfl, rfl, rfl, rfl, rfl, step_clock rfl, ?_⟩
  rw [clock_dispatch rfl]
  cases dispatch s <;> rfl

/-- Settles O12: `resetCall` is the record that R340 lists, and the reset vector is at 0xFFFC. -/
theorem resetSetsTheStatedValues : Obligations.ResetSetsTheStatedValues := fun _ => rfl

/-- Settles O13: in a blank memory the reset vector holds 0. -/
theorem resetStateIsResetAfterConstruction : Obligations.ResetStateIsResetAfterConstruction :=
  ⟨rfl, rfl, rfl, rfl, rfl⟩

end Sys2Proof.Machine
end

