-- ==== Sys2Proof/Proofs/MemoryForm.lean ====
section
/-! SUPPORT. The canonical form represents each memory once (20_memory.md R62, log 2): its keys rise and each cell
differs from an unlisted address, so the first cell is the lowest address that reads otherwise. -/

namespace Sys2Proof.Machine

namespace Memory

theorem wfFrom_cons {lo k : Nat} {v : Byte} {rest : Memory} :
    wfFrom lo ((k, v) :: rest) = true ↔ lo ≤ k ∧ k < 65536 ∧ v ≠ unlisted ∧ wfFrom (k + 1) rest = true := by
  simp only [wfFrom, Bool.and_eq_true, decide_eq_true_eq, and_assoc]

@[simp] theorem byteAt_head (k : Nat) (v : Byte) (rest : Memory) : byteAt ((k, v) :: rest) k = v := if_pos rfl

theorem byteAt_tail {k a : Nat} (v : Byte) (rest : Memory) (h : a ≠ k) :
    byteAt ((k, v) :: rest) a = byteAt rest a := if_neg h.symm

/-- An address that reads otherwise than an unlisted one is not below the first key. -/
theorem head_le_of_byteAt_ne {lo k a : Nat} {v : Byte} {rest : Memory} (h : wfFrom lo ((k, v) :: rest) = true)
    (ha : byteAt ((k, v) :: rest) a ≠ unlisted) : k ≤ a := by
  obtain ⟨-, hk, hv, hrest⟩ := wfFrom_cons.mp h
  exact not_lt.mp fun hlt => ha (byteAt_below (wfFrom_cons.mpr ⟨le_rfl, hk, hv, hrest⟩) hlt)

theorem eq_of_byteAt_eq {m m' : Memory} {lo lo' : Nat} (h : wfFrom lo m = true) (h' : wfFrom lo' m' = true)
    (heq : ∀ a < 65536, byteAt m a = byteAt m' a) : m = m' := by
  induction m generalizing m' lo lo' with
  | nil =>
    cases m' with
    | nil => rfl
    | cons c' rest' =>
      obtain ⟨k', v'⟩ := c'
      obtain ⟨-, hk', hv', -⟩ := wfFrom_cons.mp h'
      exact absurd ((byteAt_head ..).symm.trans (heq k' hk').symm) hv'
  | cons c rest ih =>
    obtain ⟨k, v⟩ := c
    obtain ⟨-, hk, hv, hrest⟩ := wfFrom_cons.mp h
    have hread : byteAt m' k = v := (heq k hk).symm.trans (byteAt_head ..)
    cases m' with
    | nil => exact absurd hread.symm hv
    | cons c' rest' =>
      obtain ⟨k', v'⟩ := c'
      obtain ⟨-, hk', hv', hrest'⟩ := wfFrom_cons.mp h'
      have hread' : byteAt ((k, v) :: rest) k' = v' := (heq k' hk').trans (byteAt_head ..)
      obtain rfl : k = k' :=
        le_antisymm (head_le_of_byteAt_ne h (hread'.trans_ne hv')) (head_le_of_byteAt_ne h' (hread.trans_ne hv))
      obtain rfl : v' = v := (byteAt_head ..).symm.trans hread
      refine congrArg _ (ih hrest hrest' fun a ha => ?_)
      by_cases hak : a = k
      · rw [byteAt_below hrest (by omega), byteAt_below hrest' (by omega)]
      · simpa only [byteAt_tail _ _ hak] using heq a ha

end Memory

/-- Settles O20: a read at an address is the byte at its key, and the form's keys are addresses. -/
theorem equalReadsMeanEqualMemories : Obligations.EqualReadsMeanEqualMemories := by
  intro m m' h h' heq
  refine Memory.eq_of_byteAt_eq h h' fun a ha => ?_
  simpa [Memory.read, Nat.mod_eq_of_lt ha] using heq (BitVec.ofNat 16 a)

end Sys2Proof.Machine
end

