-- ==== Sys2Proof/Proofs/MemoryFrame.lean ====
section
/-! SUPPORT. Which bytes of memory each operation can change (20_memory.md R69, R70; 43_shift_rotate.md R180). -/

namespace Sys2Proof.Machine

/-! ## A byte after the shared operations -/

section
variable {u : State} {b : Addr}

@[simp] theorem load_branchIf (cond : Bool) : (branchIf cond u).load b = u.load b := by cases cond <;> rfl

@[simp] theorem load_returnFromInterrupt : (returnFromInterrupt u).load b = u.load b := by
  rw [returnFromInterrupt_eq]; rfl

variable (h : u.mem.wf = true)
include h

theorem load_store_of_notMem {a : Addr} (hb : b ∉ [a]) (v : Byte) : (u.store a v).load b = u.load b := by
  rw [load_store h, if_neg (List.mem_singleton.not.mp hb)]

/-- The write-back reaches memory in every mode but Implied (R180). -/
theorem load_writeBack {m : Operand} (hb : b ∉ if m.mode = .imp then [] else [u.addrAbs]) (v : Byte) :
    (writeBack m v u).load b = u.load b := by
  cases m with
  | imp => rfl
  | _ => exact load_store_of_notMem h hb v

theorem load_shiftTo {m : Operand} (hb : b ∉ if m.mode = .imp then [] else [u.addrAbs]) (out : Bool) (t : Addr) :
    (shiftTo m out t u).load b = u.load b :=
  load_writeBack (u := (u.setTemp t).setSr (shiftStatus out t u.sr)) h hb _

theorem load_storeZN (hb : b ∉ [u.addrAbs]) (t : Addr) : (storeZN t u).load b = u.load b := by
  rw [storeZN, State.load_setSr, load_store_of_notMem (by exact h) hb, State.load_setTemp]

theorem load_push_of_notMem (hb : b ∉ [stackAddr u.sp]) (v : Byte) : (push v u).load b = u.load b := by
  rw [load_push h, if_neg (List.mem_singleton.not.mp hb)]

theorem load_pushWord_of_notMem (hb : b ∉ [stackAddr u.sp, stackAddr (u.sp - 1)]) (w : Addr) :
    (pushWord w u).load b = u.load b := by
  simp only [List.mem_cons, List.not_mem_nil, or_false, not_or] at hb
  obtain ⟨hhi, hlo⟩ := hb
  rw [load_pushWord h, if_neg hlo, if_neg hhi]

theorem load_breakEntry_of_notMem (hb : b ∉ [stackAddr u.sp, stackAddr (u.sp - 1), stackAddr (u.sp - 2)]) :
    (breakEntry u).load b = u.load b := by
  have htwo : u.sp - 1 - 1 = u.sp - 2 := by bv_omega
  simp only [List.mem_cons, List.not_mem_nil, or_false, not_or] at hb
  obtain ⟨hhi, hlo, hsr⟩ := hb
  rw [breakEntry, load_enterInterrupt h, htwo, if_neg hsr, if_neg hlo, if_neg hhi]

end

/-! ## Every instruction -/

/-- The state that an operation works on holds in `addr_abs` the operand's address, and SP as before (R152). -/
theorem operation_load {i : Instr} {s u : State} (h : u.mem.wf = true)
    (habs : u.addrAbs = effectiveAddress i.operand s) (hsp : u.sp = s.sp) {b : Addr} (hb : b ∉ storesTo i s) :
    (operation i u).load b = u.load b := by
  cases i with
  | sta m | stx m | sty m => exact load_store_of_notMem h (habs ▸ hb) _
  | inc m | dec m => simp only [operation, withOperand_eq]; exact load_storeZN (by exact h) (habs ▸ hb) _
  | asl m | lsr m | rol m | ror m =>
    simp only [operation, withOperand_eq]; exact load_shiftTo (by exact h) (habs ▸ hb) ..
  | pha | php => exact load_push_of_notMem h (hsp ▸ hb) _
  | jsr target => exact load_pushWord_of_notMem h (hsp ▸ hb) _
  | brk => exact load_breakEntry_of_notMem h (hsp ▸ hb)
  | rti => exact load_returnFromInterrupt
  | pla | plp | rts => simp [operation, setAZN, pop]
  | bcc dd | bcs dd | beq dd | bmi dd | bne dd | bpl dd | bvc dd | bvs dd => exact load_branchIf _
  | adc m | sbc m | and m | ora m | eor m | bit m | cmp m | cpx m | cpy m | lda m | ldx m | ldy m =>
    simp only [operation, withOperand_eq]; rfl
  | _ => rfl

/-- Settles O28: neither the resolver nor the extra cycle stores, so the bytes an instruction changes are its
operation's. -/
theorem memoryChangesOnlyWhereStored : Obligations.MemoryChangesOnlyWhereStored := by
  intro i s t h hexec b hb
  rw [eq_result hexec, State.load, result_mem, ← State.load,
    operation_load (by rwa [resolve_mem]) (resolve_addrAbs ..) (resolve_sp ..) hb, resolve_load]

end Sys2Proof.Machine
end

