-- ==== Sys2Proof/Proofs/Encoding.lean ====
section
/-! SUPPORT. The encoder, written from the listings of R101, R104 and R105, against the decoder's table of R100
(30_encoding.md). An instruction's opcode byte is a slot of its mnemonic and mode, and an operand's bytes are the ones
that its mode forms it from; the round trips join the two. -/

namespace Sys2Proof

open Machine

/-! ## The opcode byte and the table's slot -/

theorem isIllegal_eq_false_iff {i : Instr} : isIllegal i = false ↔ i.mnemonic ≠ .nopStar ∧ i.mnemonic ≠ .ill := by
  cases i <;> simp [isIllegal, Instr.mnemonic]

/-- The opcode byte of an official instruction stands in R101. -/
theorem opcode?_official {i : Instr} (h : isIllegal i = false) :
    i.opcode? = i.mnemonic.slots.lookup i.operand.mode := by
  cases i with
  | nopStar slot | ill slot => cases h
  | _ => rfl

theorem opcode?_nopStar {slot op : Byte} :
    (Instr.nopStar slot).opcode? = some op ↔ nopStarSlots.contains slot = true ∧ slot = op :=
  Option.ite_none_right_eq_some.trans (and_congr_right' Option.some_inj)

theorem opcode?_ill {slot op : Byte} :
    (Instr.ill slot).opcode? = some op ↔ illSlots.contains slot = true ∧ slot = op :=
  Option.ite_none_right_eq_some.trans (and_congr_right' Option.some_inj)

/-- R101 lists a slot for each mode that the instruction rules give an official mnemonic. -/
theorem slots_lookup_isSome {mn : Mnemonic} (hn : mn ≠ .nopStar) (hi : mn ≠ .ill) {mode : Mode}
    (h : mn.modes.contains mode = true) : (mn.slots.lookup mode).isSome = true := by
  have hall : (mn.modes.all fun mode => (mn.slots.lookup mode).isSome) = true := by
    cases mn with
    | nopStar | ill => contradiction
    | _ => decide
  exact List.all_eq_true.mp hall mode (List.contains_iff_mem.mp h)

/-- R101 lists each official slot of the table under its own mnemonic and mode. -/
theorem slots_lookup_descriptor {op : Byte} (hn : (descriptor op).mnemonic ≠ .nopStar)
    (hi : (descriptor op).mnemonic ≠ .ill) :
    (descriptor op).mnemonic.slots.lookup (descriptor op).mode = some op := by
  have h := slotCheck_all op
  simp only [slotCheck, Bool.and_eq_true] at h
  obtain ⟨-, hlisted⟩ := h
  exact eq_of_beq hlisted

/-- Every well-formed instruction has an opcode byte. -/
theorem exists_opcode_of_wellFormed {i : Instr} (h : i.wellFormed = true) : ∃ op, i.opcode? = some op := by
  cases hill : isIllegal i with
  | false =>
    obtain ⟨hn, hi⟩ := isIllegal_eq_false_iff.mp hill
    rw [opcode?_official hill]
    exact Option.isSome_iff_exists.mp (slots_lookup_isSome hn hi (Bool.and_elim_left h))
  | true =>
    cases i with
    | nopStar slot => exact ⟨slot, opcode?_nopStar.mpr ⟨h, rfl⟩⟩
    | ill slot => exact ⟨slot, opcode?_ill.mpr ⟨h, rfl⟩⟩
    | _ => cases hill

/-- The table's slot at an instruction's opcode byte has its mnemonic and its mode. -/
theorem descriptor_of_opcode? {i : Instr} {op : Byte} (h : i.opcode? = some op) :
    (descriptor op).mnemonic = i.mnemonic ∧ (descriptor op).mode = i.operand.mode := by
  cases hill : isIllegal i with
  | false =>
    rw [opcode?_official hill] at h
    obtain ⟨_, _, hslots, -⟩ := List.lookup_eq_some_iff.mp h
    exact listed_slot _ (by simp [hslots])
  | true =>
    cases i with
    | nopStar slot => obtain ⟨hs, rfl⟩ := opcode?_nopStar.mp h; exact nopStar_slot hs
    | ill slot => obtain ⟨hs, rfl⟩ := opcode?_ill.mp h; exact ill_slot hs
    | _ => cases hill

/-- An instruction is its slot's, applied to its operand. -/
theorem ofSlot_of_opcode? {i : Instr} {op : Byte} (h : i.opcode? = some op) :
    Instr.ofSlot i.mnemonic op i.operand = i := by
  cases i with
  | nopStar slot => obtain ⟨-, rfl⟩ := opcode?_nopStar.mp h; rfl
  | ill slot => obtain ⟨-, rfl⟩ := opcode?_ill.mp h; rfl
  | bcc dd | bcs dd | beq dd | bmi dd | bne dd | bpl dd | bvc dd | bvs dd =>
    simp [Instr.ofSlot, Instr.mnemonic, Instr.operand]
  | _ => rfl

/-- The opcode byte of a decoded instruction is the one it was decoded from. -/
theorem opcode?_decodeAt (op b1 b2 : Byte) : (decodeAt op b1 b2).opcode? = some op := by
  have hwf := decodeAt_wellFormed op b1 b2
  cases hill : isIllegal (decodeAt op b1 b2) with
  | false =>
    obtain ⟨hn, hi⟩ := isIllegal_eq_false_iff.mp hill
    rw [decodeAt_mnemonic] at hn hi
    rw [opcode?_official hill, decodeAt_mnemonic, decodeAt_operand, operandOf_mode, slots_lookup_descriptor hn hi]
  | true =>
    unfold decodeAt at hwf hill ⊢
    cases hmn : (descriptor op).mnemonic with
    | nopStar => rw [hmn] at hwf; exact opcode?_nopStar.mpr ⟨hwf, rfl⟩
    | ill => rw [hmn] at hwf; exact opcode?_ill.mpr ⟨hwf, rfl⟩
    | _ => rw [hmn] at hill; cases hill

/-! ## The operand bytes -/

/-- Decoding a slot's opcode and an operand's bytes, in the slot's mode, forms the operand again (R91). -/
theorem decode_operand_bytes {op : Byte} {m : Operand} (h : (descriptor op).mode = m.mode) (rest : List Byte) :
    decode (op :: (m.bytes ++ rest)) = .ok (Instr.ofSlot (descriptor op).mnemonic op m, rest) := by
  cases m <;> simp [decode, decodeAt, h, Operand.mode, Mode.operandBytes, Operand.bytes, operandOf]

/-- A mode forms its operand from as many of the bytes after the opcode as it consumes (R91, R107). -/
theorem operandOf_bytes (mode : Mode) (b1 b2 : Byte) :
    (operandOf mode b1 b2).bytes = [b1, b2].take mode.operandBytes := by
  cases mode <;> simp [operandOf, Operand.bytes, Mode.operandBytes]

/-- What `decode` answers is the opcode's instruction, and its operand's bytes are the ones read after the opcode. -/
theorem decode_ok {bs rest : List Byte} {i : Instr} (h : decode bs = .ok (i, rest)) :
    ∃ op b1 b2, i = decodeAt op b1 b2 ∧ bs = op :: (i.operand.bytes ++ rest) := by
  cases bs with
  | nil => cases h
  | cons op tail =>
    simp only [decode] at h
    split at h
    next hk => cases h; exact ⟨op, 0, 0, rfl, by simp [operandOf_bytes, hk]⟩
    next b1 _ hk => cases h; exact ⟨op, b1, 0, rfl, by simp [operandOf_bytes, hk]⟩
    next b1 b2 _ hk => cases h; exact ⟨op, b1, b2, rfl, by simp [operandOf_bytes, hk]⟩
    next => cases h

/-! ## The round trips -/

theorem encode_of_opcode? {i : Instr} {op : Byte} (h : i.opcode? = some op) : encode i = op :: i.operand.bytes := by
  rw [encode, h]

/-- Settles O1: the opcode's slot and the operand's bytes determine the instruction. -/
theorem decodeOfEncodeIsTheInstruction : Obligations.DecodeOfEncodeIsTheInstruction := by
  intro i rest hwf
  obtain ⟨op, hop⟩ := exists_opcode_of_wellFormed hwf
  obtain ⟨hmnemonic, hmode⟩ := descriptor_of_opcode? hop
  rw [encode_of_opcode? hop, List.cons_append, decode_operand_bytes hmode, hmnemonic, ofSlot_of_opcode? hop]

/-- Settles O2: a decoded instruction has the opcode byte and the operand bytes that were read. -/
theorem encodeOfDecodeIsTheBytes : Obligations.EncodeOfDecodeIsTheBytes := by
  intro bs i rest h
  obtain ⟨op, b1, b2, rfl, rfl⟩ := decode_ok h
  exact ⟨decodeAt_wellFormed .., by rw [encode_of_opcode? (opcode?_decodeAt ..), List.cons_append]⟩

/-! ## The table -/

/-- The base count of each slot stands in the listing of its mnemonic (R101, R104, R105). -/
theorem listedBaseCycles_lookup (op : Byte) :
    (listedBaseCycles (descriptor op).mnemonic).lookup op = some (descriptor op).base := by
  have hall := forall_slot (by decide +kernel)
    (f := fun op => (listedBaseCycles (descriptor op).mnemonic).lookup op == some (descriptor op).base)
  exact eq_of_beq (hall op)

theorem decodeAt_length (op b1 b2 : Byte) : (decodeAt op b1 b2).length = 1 + (descriptor op).mode.operandBytes := by
  rw [Instr.length, decodeAt_operand, operandOf_mode]

/-- Settles O4: decoding three bytes always answers, and the table's rows are those of the listing. -/
theorem everyOpcodeHasItsSlot : Obligations.EveryOpcodeHasItsSlot := by
  refine ⟨slotTable_length, fun op b1 b2 => ⟨decodeAt op b1 b2, ?_, decodeAt_mnemonic .., ?_, decodeAt_length ..,
    listedBaseCycles_lookup op, base_ge op, base_le op⟩⟩
  · rw [decode_three, decodeAt_length, Nat.add_sub_cancel_left]
  · rw [decodeAt_operand, operandOf_mode]

/-- Settles O3, by running the decoder on each word. -/
theorem wordsOfTheListingDecode : Obligations.WordsOfTheListingDecode := by
  unfold Obligations.WordsOfTheListingDecode
  and_intros <;> decide

end Sys2Proof
end

