-- ==== Sys2Proof/Proofs/Sequencer.lean ====
section
/-! SUPPORT. The control sequencer (40_fetch_sequencer.md R120 to R131): what one step does between and within
dispatches, and how many calls of `clock()` a dispatch occupies. Without a script a run is a sequence of `clock()` calls,
so both the run of steps and `completeInstruction` are read off `clocks`. -/

namespace Sys2Proof.Machine

/-! ## One step -/

/-- Settles O25: `exec` answers no next state only for an illegal slot that the policy refuses. -/
theorem everyInstructionCompletes : Obligations.EveryInstructionCompletes :=
  fun i s h => ⟨result i s, exec_next_iff.mpr ⟨h, rfl⟩⟩

/-- Settles O7: the next state is `result`, whose cycles are counted case by case in `result_cycles`. -/
theorem cyclesBeyondTheBaseCount : Obligations.CyclesBeyondTheBaseCount := by
  intro i s t _ h
  rw [eq_result h, result_cycles]

/-- Settles O6: without a script a step is `clock()`, which only counts down between dispatches. -/
theorem idleClockOnlyCountsDown : Obligations.IdleClockOnlyCountsDown := by
  intro s hdriver hc
  rw [step_clock hdriver, clock_idle hc]
  rfl

/-- Settles O5: the decoded instruction is `instrAt s`, and the dispatch runs it from `afterFetch s`. -/
theorem stepRunsTheDecodedInstruction : Obligations.StepRunsTheDecodedInstruction := by
  intro s i rest hdriver hc hdecode
  rw [decode_instrAt] at hdecode
  cases hdecode
  rw [step_clock hdriver, clock_dispatch hc, dispatch, afterFetch_eq]
  rfl

/-! ## Calls of `clock()` -/

theorem clocks_succ {s t : State} (h : clock s = .next t) (k : Nat) : clocks (k + 1) s = clocks k t := by
  simp only [clocks, h]

/-- As many calls as there are cycles left only count them down (R121). -/
theorem clocks_idle {k : Nat} {s : State} (hk : k ≤ s.cycles.toNat) :
    clocks k s = .next (s.setCycles (s.cycles - BitVec.ofNat 8 k)) := by
  induction k generalizing s with
  | zero => simp [clocks, State.setCycles]
  | succ k ih =>
    have hc : s.cycles ≠ 0 := by bv_omega
    have hk' : k ≤ (countDown s).cycles.toNat := by rw [countDown, State.setCycles_cycles]; bv_omega
    have hsub : s.cycles - 1 - BitVec.ofNat 8 k = s.cycles - BitVec.ofNat 8 (k + 1) := by bv_omega
    rw [clocks_succ (clock_idle hc), ih hk', countDown, State.setCycles_cycles, hsub]
    rfl

/-- From a state with no cycles left, the first call dispatches and every call takes one off, up to as many calls as the
dispatch left cycles (R124). -/
theorem clocks_dispatch {s u : State} (hc : s.cycles = 0) (hd : dispatch s = .next u) {k : Nat} (hpos : 0 < k)
    (hk : k ≤ u.cycles.toNat) : clocks k s = .next (u.setCycles (u.cycles - BitVec.ofNat 8 k)) := by
  have hidle : u.cycles ≠ 0 := by bv_omega
  have hclock : clock s = clock u := by rw [clock_dispatch hc, hd, clock_idle hidle]
  calc clocks k s
      = clocks k u := by
        obtain ⟨n, rfl⟩ := Nat.exists_eq_succ_of_ne_zero hpos.ne'
        simp only [clocks, hclock]
    _ = .next (u.setCycles (u.cycles - BitVec.ofNat 8 k)) := clocks_idle hk

/-- The calls that a dispatch occupies end with `cycles` at 0 and nothing else changed since it (R124). -/
theorem clocks_whole_dispatch {s u : State} (hc : s.cycles = 0) (hd : dispatch s = .next u) :
    clocks u.cycles.toNat s = .next { u with cycles := 0 } := by
  obtain ⟨hge, -⟩ := dispatch_cycles hd
  rw [clocks_dispatch hc hd (by bv_omega) le_rfl, BitVec.ofNat_toNat, BitVec.setWidth_eq, BitVec.sub_self]
  rfl

/-- `completeInstruction` is the first call and as many more as it leaves cycles (log 12). -/
theorem completeInstruction_eq {s t : State} (h : clock s = .next t) :
    completeInstruction s = clocks (t.cycles.toNat + 1) s := by
  rw [clocks_succ h]
  simp only [completeInstruction, h]

/-- Settles O9: the calls it makes are the ones that the dispatch occupies. -/
theorem completeInstructionDispatchesOnce : Obligations.CompleteInstructionDispatchesOnce := by
  intro s u hc hd
  obtain ⟨hge, -⟩ := dispatch_cycles hd
  have hclock : clock s = .next (countDown u) := by rw [clock_dispatch hc, hd]
  have hcount : (countDown u).cycles.toNat + 1 = u.cycles.toNat := by
    rw [countDown, State.setCycles_cycles]
    bv_omega
  rw [completeInstruction_eq hclock, hcount, clocks_whole_dispatch hc hd]

/-! ## Runs of steps -/

/-- Without a script, steps are calls of `clock()` (log 1). -/
theorem run_eq_clocks {s : State} (h : s.driver = []) (k : Nat) : core.run k s = clocks k s := by
  induction k generalizing s with
  | zero => rfl
  | succ k ih =>
    have hstep : core.step s = clock s := step_clock h
    simp only [Host.Core.run, clocks, hstep]
    cases hclock : clock s with
    | next t => exact ih ((clock_driver hclock).trans h)
    | fault r | refused r => rfl

/-- The cycles a dispatch leaves are the slot's base count and the extra cycles, with no wrap-around (R123, R38). -/
theorem dispatch_cycles_toNat {s u : State} (h : dispatch s = .next u) :
    u.cycles.toNat = (descriptor (s.load s.pc)).base.toNat + extraCycles (instrAt s) (afterFetch s) := by
  have hsum : u.cycles = (descriptor (s.load s.pc)).base + BitVec.ofNat 8 (extraCycles (instrAt s) (afterFetch s)) := by
    rw [eq_result h, result_cycles, afterFetch_eq]
  have hbase := base_le (s.load s.pc)
  have hextra := extraCycles_le_two (instrAt s) (afterFetch s)
  bv_omega

/-- Settles O8: after `k` of the calls that the dispatch occupies, `cycles` is `k` below what it left. -/
theorem dispatchOccupiesItsCycles : Obligations.DispatchOccupiesItsCycles := by
  intro s u hdriver hc hd
  refine ⟨dispatch_cycles_toNat hd, fun k hpos hk => ?_, ?_⟩
  · refine ⟨_, (run_eq_clocks hdriver k).trans (clocks_dispatch hc hd hpos hk.le), ?_⟩
    have hleft : u.cycles - BitVec.ofNat 8 k ≠ 0 := by bv_omega
    exact beq_false_of_ne hleft
  · exact (run_eq_clocks hdriver _).trans (clocks_whole_dispatch hc hd)

end Sys2Proof.Machine
end

