-- ==== Sys2Proof/Proofs/AddressingModes.lean ====
section
/-! SUPPORT. The addressing-mode resolvers (41_addressing_modes.md R140 to R151): the model's masks and sums of the
computed addresses as page and offset, and the resolver of a mode from the address it computes. -/

namespace Sys2Proof

/-! ## Page and offset (R10) -/

theorem concat_zero (b : Byte) : concat 0 b = zext b :=
  BitVec.eq_of_toNat_eq (by simp [toNat_concat, toNat_zext])

theorem concat_and_concat (hi lo hi' lo' : Byte) :
    concat hi lo &&& concat hi' lo' = concat (hi &&& hi') (lo &&& lo') :=
  BitVec.and_append

theorem concat_and_page (hi lo : Byte) : concat hi lo &&& 0xFF00 = concat hi 0 :=
  calc concat hi lo &&& 0xFF00
      = concat hi lo &&& concat 0xFF 0 := rfl
    _ = concat (hi &&& BitVec.allOnes 8) (lo &&& 0#8) := concat_and_concat ..
    _ = concat hi 0 := by rw [BitVec.and_allOnes, BitVec.and_zero]; rfl

theorem and_offset (w : Addr) : w &&& 0x00FF = concat 0 (loByte w) :=
  calc w &&& 0x00FF
      = concat (hiByte w) (loByte w) &&& concat 0 0xFF := by rw [concat_hiByte_loByte]; rfl
    _ = concat (hiByte w &&& 0#8) (loByte w &&& BitVec.allOnes 8) := concat_and_concat ..
    _ = concat 0 (loByte w) := by rw [BitVec.and_allOnes, BitVec.and_zero]; rfl

/-- A zero-page sum wraps in page 0 (R143, R144). -/
theorem zext_add_zext_and_offset (a b : Byte) : (zext a + zext b) &&& 0x00FF = concat 0 (a + b) := by
  have hsum : loByte (zext a + zext b) = loByte (zext a) + loByte (zext b) := BitVec.setWidth_add _ _ (by decide)
  rw [and_offset, hsum, loByte_zext, loByte_zext]

/-- Below the last offset of a page, the next address is in the same page. -/
theorem concat_add_one {hi lo : Byte} (h : lo ≠ 0xFF) : concat hi lo + 1 = concat hi (lo + 1) := by
  apply BitVec.eq_of_toNat_eq
  rw [BitVec.toNat_add, toNat_concat, toNat_concat]
  bv_omega

end Sys2Proof

namespace Sys2Proof.Machine

/-! ## The resolvers -/

/-- The Indirect pointer's second byte is in the pointer's own page: past the last offset the model goes to the page's
first byte (R149). -/
theorem effectiveAddress_ind_concat (lo hi : Byte) (s : State) :
    effectiveAddress (.ind (concat hi lo)) s = concat (s.load (concat hi (lo + 1))) (s.load (concat hi lo)) := by
  have hnext : (if lo = 0xFF then concat hi lo &&& 0xFF00 else concat hi lo + 1) = concat hi (lo + 1) := by
    split_ifs with hlast
    · rw [hlast, concat_and_page]
      rfl
    · exact concat_add_one hlast
  rw [effectiveAddress, loByte_concat, ← apply_ite s.load, hnext]

/-- A resolver that computes an address latches it in `addr_abs` and moves PC past its operand bytes (R141 to R151). -/
theorem resolve_of_effectiveAddress {m : Operand} {s : State} {addr : Addr} (hrel : m.mode ≠ .rel) (himp : m.mode ≠ .imp)
    (h : effectiveAddress m s = addr) :
    resolve m s = { s with addrAbs := addr, pc := s.pc + BitVec.ofNat 16 m.mode.operandBytes } := by
  rw [resolve_eq m s hrel himp, resolvedState, h]

/-- The signal of a resolver, from the carry that `crossesPage` writes for its mode (R128). -/
theorem pageCrossed_iff {m : Operand} {s : State} {carry : Prop} [Decidable carry]
    (h : crossesPage m s = decide carry) : pageCrossed m s = true ↔ carry := by
  rw [pageCrossed_eq, h, decide_eq_true_iff]

/-- Settles O30: each resolver from the address it computes, and the indexed absolute signals from the carry. -/
theorem resolversComputeTheirAddresses : Obligations.ResolversComputeTheirAddresses := by
  intro s
  refine ⟨fun nn => ⟨rfl, rfl⟩, fun dd => ⟨resolve_rel s dd, rfl⟩, fun aa => ⟨?zp0, rfl⟩, fun aa => ⟨?zpx, rfl⟩,
    fun aa => ⟨?zpy, rfl⟩, fun w => ⟨rfl, rfl⟩, fun w => ⟨?abx, pageCrossed_iff rfl⟩,
    fun w => ⟨?aby, pageCrossed_iff rfl⟩, fun lo hi => ⟨?ind, rfl⟩, fun tt => ⟨?izx, rfl⟩⟩
  case zp0 => exact resolve_of_effectiveAddress nofun nofun (concat_zero aa).symm
  case zpx => exact resolve_of_effectiveAddress nofun nofun (zext_add_zext_and_offset aa s.x)
  case zpy => exact resolve_of_effectiveAddress nofun nofun (zext_add_zext_and_offset aa s.y)
  case abx => exact resolve_of_effectiveAddress nofun nofun (by rw [concat_zero, effectiveAddress])
  case aby => exact resolve_of_effectiveAddress nofun nofun (by rw [concat_zero, effectiveAddress])
  case ind => exact resolve_of_effectiveAddress nofun nofun (effectiveAddress_ind_concat lo hi s)
  case izx => exact resolve_of_effectiveAddress nofun nofun (by simp only [concat_zero, effectiveAddress])

/-- Settles O31: Implied is its own record, Indirect-Y goes by its address and its carry. -/
theorem impliedAndIndirectYResolvers : Obligations.ImpliedAndIndirectYResolvers := by
  refine fun s => ⟨⟨resolve_imp s, rfl⟩, fun tt => ⟨?address, ?signal⟩, fun m => pageCrossed_eq m s⟩
  case address => exact resolve_of_effectiveAddress nofun nofun (by simp only [concat_zero, effectiveAddress])
  case signal =>
    rw [concat_zero]
    exact pageCrossed_iff rfl

end Sys2Proof.Machine
end

