-- ==== Sys2Proof/Proofs/FetchingInstructions.lean ====
section
/-! SUPPORT. The instructions that fetch their operand and hand it to one operation (40_fetch_sequencer.md R126, R127):
their next state, their "Encodings:" line, and Z and N of a result byte. -/

namespace Sys2Proof.Machine

/-! ## The encodings -/

/-- The "Encodings:" line of an official mnemonic's rule, against the listing of R101 that the encoder reads. -/
theorem encodedAs_of_slots {mk : Operand → Instr} {mn : Mnemonic} {listing : List (Mode × Byte)}
    (hmk : ∀ m, isIllegal (mk m) = false ∧ (mk m).mnemonic = mn ∧ (mk m).operand = m)
    (hlisted : ∀ p ∈ listing, mn.slots.lookup p.1 = some p.2) : EncodedAs mk listing := by
  intro m op hmem
  obtain ⟨hofficial, hmnemonic, hoperand⟩ := hmk m
  have hop : (mk m).opcode? = some op := by
    rw [opcode?_official hofficial, hmnemonic, hoperand]
    exact hlisted _ hmem
  rw [encode_of_opcode? hop, hoperand]

/-! ## The next state -/

/-- A mnemonic without a Relative slot is not encoded in that mode. -/
theorem mode_ne_rel_of_wellFormed {i : Instr} (hwf : i.wellFormed = true)
    (hmodes : i.mnemonic.modes.contains .rel = false) : i.operand.mode ≠ .rel := by
  intro hrel
  have hmode : i.mnemonic.modes.contains i.operand.mode = true := Bool.and_elim_left hwf
  rw [hrel, hmodes] at hmode
  cases hmode

/-- The handler of the instructions `mk` fetches the operand, runs `op` on it and returns `pays` (R126, R127). -/
structure FetchesInto (mk : Operand → Instr) (pays : Bool) (op : Byte → State → State) : Prop where
  exec_eq : ∀ m s, exec (mk m) s = runSlot m pays (withOperand m op) s
  mode_ne_rel : ∀ {m}, (mk m).wellFormed = true → m.mode ≠ .rel
  op_cycles : ∀ v u, (op v u).cycles = u.cycles

/-- The next state: the operation on the fetched operand, with the page-crossing cycle where it is paid (R128). -/
theorem FetchesInto.exec_next {mk : Operand → Instr} {pays : Bool} {op : Byte → State → State}
    (h : FetchesInto mk pays op) {m : Operand} (hwf : (mk m).wellFormed = true) (s : State) :
    exec (mk m) s =
      .next { op (operandValue m s) (fetchedState m s) with
              cycles := s.cycles + if pays then pageCycle m s else 0 } := by
  have hcycle : (if crossesPage m s && pays then 1 else 0) = if pays then pageCycle m s else 0 := by
    cases pays <;> simp [pageCycle]
  rw [h.exec_eq, runSlot_withOperand (h.mode_ne_rel hwf), h.op_cycles, hcycle]
  rfl

theorem adc_fetchesInto : FetchesInto .adc true addCarry :=
  ⟨fun _ _ => rfl, (mode_ne_rel_of_wellFormed · rfl), fun _ _ => rfl⟩

theorem sbc_fetchesInto : FetchesInto .sbc true fun v => addCarry (v ^^^ 0xFF) :=
  ⟨fun _ _ => rfl, (mode_ne_rel_of_wellFormed · rfl), fun _ _ => rfl⟩

theorem and_fetchesInto : FetchesInto .and true fun v u => setAZN (u.a &&& v) u :=
  ⟨fun _ _ => rfl, (mode_ne_rel_of_wellFormed · rfl), fun _ _ => rfl⟩

theorem ora_fetchesInto : FetchesInto .ora true fun v u => setAZN (u.a ||| v) u :=
  ⟨fun _ _ => rfl, (mode_ne_rel_of_wellFormed · rfl), fun _ _ => rfl⟩

theorem eor_fetchesInto : FetchesInto .eor true fun v u => setAZN (u.a ^^^ v) u :=
  ⟨fun _ _ => rfl, (mode_ne_rel_of_wellFormed · rfl), fun _ _ => rfl⟩

theorem bit_fetchesInto : FetchesInto .bit false testBits :=
  ⟨fun _ _ => rfl, (mode_ne_rel_of_wellFormed · rfl), fun _ _ => rfl⟩

theorem cmp_fetchesInto : FetchesInto .cmp true fun v u => compareWith u.a v u :=
  ⟨fun _ _ => rfl, (mode_ne_rel_of_wellFormed · rfl), fun _ _ => rfl⟩

theorem cpx_fetchesInto : FetchesInto .cpx false fun v u => compareWith u.x v u :=
  ⟨fun _ _ => rfl, (mode_ne_rel_of_wellFormed · rfl), fun _ _ => rfl⟩

theorem cpy_fetchesInto : FetchesInto .cpy false fun v u => compareWith u.y v u :=
  ⟨fun _ _ => rfl, (mode_ne_rel_of_wellFormed · rfl), fun _ _ => rfl⟩

/-! ## Z and N -/

theorem getLsbD_seven_iff (v : Byte) : v.getLsbD 7 = true ↔ 128 ≤ v.toNat := by
  rw [← BitVec.msb_eq_getLsbD_last (x := v), BitVec.msb_eq_decide, decide_eq_true_iff]

theorem getLsbD_seven_loByte (t : Addr) : (loByte t).getLsbD 7 = t.getLsbD 7 := by
  simp [loByte]

theorem znOf_of_flags {v sr : Byte} (hz : getFlag sr .z = (v == 0)) (hn : getFlag sr .n = v.getLsbD 7) : ZNOf v sr :=
  ⟨by rw [hz, beq_iff_eq], by rw [hn, getLsbD_seven_iff]⟩

theorem znOf_setZN (v sr : Byte) : ZNOf v (setZN v sr) := znOf_of_flags (by simp) (by simp)

end Sys2Proof.Machine
end

