-- ==== Sys2Proof/Proofs/ArithmeticLogic.lean ====
section
/-! SUPPORT. Arithmetic, logic and compare (42_arithmetic_logic.md R160 to R171): the 16-bit sum and difference as
numbers, the flags computed from them, and the overflow law. -/

namespace Sys2Proof.Machine

/-! ## The sum of ADC and SBC -/

theorem toNat_carryWord (sr : Byte) : (carryWord sr).toNat = (getFlag sr .c).toNat := by
  rw [carryWord]
  cases getFlag sr .c <;> rfl

/-- The sum of two bytes and a carry does not wrap in 16 bits (R161). -/
theorem toNat_sumWord (a w sr : Byte) : (sumWord a w sr).toNat = a.toNat + w.toNat + (getFlag sr .c).toNat := by
  have hcarry : (getFlag sr .c).toNat ≤ 1 := Bool.toNat_le _
  rw [sumWord, BitVec.toNat_add, BitVec.toNat_add, toNat_zext, toNat_zext, toNat_carryWord]
  omega

theorem sumWord_lt (a w sr : Byte) : (sumWord a w sr).toNat < 512 := by
  have hcarry : (getFlag sr .c).toNat ≤ 1 := Bool.toNat_le _
  rw [toNat_sumWord]
  omega

/-- Bit 8 of the sum is the carry out of the byte. -/
theorem getLsbD_eight_iff {t : Addr} (h : t.toNat < 512) : t.getLsbD 8 = true ↔ 256 ≤ t.toNat := by
  rw [BitVec.getLsbD, Nat.testBit_eq_decide_div_mod_eq, decide_eq_true_iff]
  omega

theorem toNat_loByte_sumWord (a w sr : Byte) :
    (loByte (sumWord a w sr)).toNat = (a.toNat + w.toNat + (getFlag sr .c).toNat) % 256 := by
  rw [toNat_loByte, toNat_sumWord]

/-! ## The complemented operand of SBC (R162) -/

theorem toNat_complement (v : Byte) : (v ^^^ 0xFF).toNat = 255 - v.toNat := by
  rw [show (0xFF : Byte) = BitVec.allOnes 8 from rfl, BitVec.xor_allOnes, BitVec.toNat_not]

theorem toInt_complement (v : Byte) : (v ^^^ 0xFF).toInt = -1 - v.toInt := by
  have hw := toNat_complement v
  rw [BitVec.toInt_eq_toNat_cond, BitVec.toInt_eq_toNat_cond]
  omega

/-- The low byte of the sum is A - M - (1 - C) modulo 256. -/
theorem toNat_loByte_sumWord_complement (a v sr : Byte) :
    (loByte (sumWord a (v ^^^ 0xFF) sr)).toNat = (512 + a.toNat - v.toNat - (1 - (getFlag sr .c).toNat)) % 256 := by
  have hcarry : (getFlag sr .c).toNat ≤ 1 := Bool.toNat_le _
  rw [toNat_loByte_sumWord, toNat_complement]
  omega

/-- The sum carries where the difference does not borrow. -/
theorem le_sumWord_complement_iff (a v sr : Byte) :
    256 ≤ (sumWord a (v ^^^ 0xFF) sr).toNat ↔ v.toNat + (1 - (getFlag sr .c).toNat) ≤ a.toNat := by
  have hcarry : (getFlag sr .c).toNat ≤ 1 := Bool.toNat_le _
  rw [toNat_sumWord, toNat_complement]
  omega

/-! ## The flags of ADC and SBC -/

section
variable (a w sr : Byte) (t : Addr)

theorem sumStatus_carry :
    getFlag (sumStatus a w (sumWord a w sr) sr) .c = true ↔ 256 ≤ (sumWord a w sr).toNat := by
  rw [getFlag_sumStatus]
  exact getLsbD_eight_iff (sumWord_lt a w sr)

theorem znOf_sumStatus : ZNOf (loByte t) (sumStatus a w t sr) :=
  znOf_of_flags (getFlag_sumStatus ..) ((getFlag_sumStatus ..).trans (getLsbD_seven_loByte t).symm)

theorem and_signMask_ne_zero_iff (v : Byte) : v &&& 0x80 ≠ 0 ↔ v.msb = true := by
  rw [show (0x80 : Byte) = BitVec.twoPow 8 7 from rfl, BitVec.and_twoPow, BitVec.msb_eq_getLsbD_last]
  cases v.getLsbD 7 <;> decide

/-- V is the sign bit of `~(A ^ w) & (A ^ R)` (R161, R162). -/
theorem sumStatus_overflow :
    getFlag (sumStatus a w t sr) .v = true ↔ ~~~(a ^^^ w) &&& (a ^^^ loByte t) &&& 0x80 ≠ 0 := by
  rw [and_signMask_ne_zero_iff, getFlag_sumStatus, BitVec.msb_eq_getLsbD_last]

/-- V says that the operands have one sign and the result the other (R171). -/
theorem sumStatus_overflow_iff_msb :
    getFlag (sumStatus a w t sr) .v = true ↔ a.msb = w.msb ∧ (loByte t).msb ≠ a.msb := by
  rw [sumStatus_overflow, and_signMask_ne_zero_iff, BitVec.msb_and, BitVec.msb_not, BitVec.msb_xor, BitVec.msb_xor]
  cases a.msb <;> cases w.msb <;> cases (loByte t).msb <;> decide

/-- The other form of R171: the result's sign is neither operand's. -/
theorem sumStatus_overflow_iff_result :
    getFlag (sumStatus a w t sr) .v = true ↔ (loByte t ^^^ a) &&& (loByte t ^^^ w) &&& 0x80 ≠ 0 := by
  rw [sumStatus_overflow_iff_msb, and_signMask_ne_zero_iff, BitVec.msb_and, BitVec.msb_xor, BitVec.msb_xor]
  cases a.msb <;> cases w.msb <;> cases (loByte t).msb <;> decide

/-- V says that the signed sum leaves a byte's range (R171). -/
theorem sumStatus_overflow_iff_toInt :
    getFlag (sumStatus a w (sumWord a w sr) sr) .v = true ↔
      a.toInt + w.toInt + (getFlag sr .c).toNat < -128 ∨ 127 < a.toInt + w.toInt + (getFlag sr .c).toNat := by
  have hcarry : (getFlag sr .c).toNat ≤ 1 := Bool.toNat_le _
  rw [sumStatus_overflow_iff_msb]
  simp only [BitVec.msb_eq_decide, BitVec.toInt_eq_toNat_cond, ne_eq, decide_eq_decide, toNat_loByte_sumWord]
  omega

/-- V of SBC says that the signed difference A - M - (1 - C) leaves a byte's range (R171). -/
theorem sumStatus_complement_overflow (v : Byte) :
    getFlag (sumStatus a (v ^^^ 0xFF) (sumWord a (v ^^^ 0xFF) sr) sr) .v = true ↔
      a.toInt - v.toInt - (1 - (getFlag sr .c).toNat) < -128 ∨
        127 < a.toInt - v.toInt - (1 - (getFlag sr .c).toNat) := by
  rw [sumStatus_overflow_iff_toInt, toInt_complement]
  omega

end

/-- Settles O32: the fields of the next state, by the facts about the sum and its flags. -/
theorem adcAddsWithCarry : Obligations.AdcAddsWithCarry := by
  refine ⟨encodedAs_of_slots (mn := .adc) (fun _ => ⟨rfl, rfl, rfl⟩) (by decide), fun m s hwf => ?_⟩
  refine ⟨_, adc_fetchesInto.exec_next hwf s, rfl, toNat_sumWord .., toNat_loByte_sumWord .., ?carry,
    znOf_sumStatus .., sumStatus_overflow .., flagsKept_sumStatus⟩
  case carry =>
    refine (sumStatus_carry ..).trans ?_
    rw [toNat_sumWord]
    rfl

/-- Settles O33: ADC's facts at the complemented operand, which is 255 - M. -/
theorem sbcSubtractsWithBorrow : Obligations.SbcSubtractsWithBorrow := by
  refine ⟨encodedAs_of_slots (mn := .sbc) (fun _ => ⟨rfl, rfl, rfl⟩) (by decide), fun m s hwf => ?_⟩
  exact ⟨_, sbc_fetchesInto.exec_next hwf s, rfl, toNat_sumWord .., toNat_loByte _, sumStatus_carry ..,
    toNat_loByte_sumWord_complement .., (sumStatus_carry ..).trans (le_sumWord_complement_iff ..), znOf_sumStatus ..,
    sumStatus_overflow .., flagsKept_sumStatus⟩

/-- Settles O34: V of ADC by the signs, and of SBC in its three forms at the complemented operand. -/
theorem overflowLaw : Obligations.OverflowLaw := by
  intro m s t
  refine ⟨fun hwf h => ?adc, fun hwf h => ?sbc⟩
  case adc =>
    rw [adc_fetchesInto.exec_next hwf] at h
    cases h
    exact sumStatus_overflow_iff_msb ..
  case sbc =>
    rw [sbc_fetchesInto.exec_next hwf] at h
    cases h
    exact ⟨sumStatus_overflow_iff_msb .., sumStatus_overflow_iff_result .., sumStatus_complement_overflow ..⟩

/-! ## AND, ORA, EOR and BIT -/

theorem FetchesInto.putsInA {mk : Operand → Instr} {value : Byte → Byte → Byte}
    (h : FetchesInto mk true fun v u => setAZN (value u.a v) u) : PutsInA mk value :=
  fun _ s hwf => ⟨_, h.exec_next hwf s, rfl, znOf_setZN .., flagsKept_setZN⟩

/-- Settles O36: the three write A through `setAZN`. -/
theorem logicOperations : Obligations.LogicOperations := by
  refine ⟨?_, ?_, ?_, and_fetchesInto.putsInA, ora_fetchesInto.putsInA, eor_fetchesInto.putsInA⟩
  · exact encodedAs_of_slots (mn := .and) (fun _ => ⟨rfl, rfl, rfl⟩) (by decide)
  · exact encodedAs_of_slots (mn := .ora) (fun _ => ⟨rfl, rfl, rfl⟩) (by decide)
  · exact encodedAs_of_slots (mn := .eor) (fun _ => ⟨rfl, rfl, rfl⟩) (by decide)

theorem bitStatus_zero (a v sr : Byte) : getFlag (bitStatus a v sr) .z = true ↔ a &&& v = 0 := by
  rw [getFlag_bitStatus]
  exact beq_iff_eq

/-- Settles O37: each flag that BIT writes, from the byte it is read off. -/
theorem bitTestsMemory : Obligations.BitTestsMemory := by
  refine ⟨encodedAs_of_slots (mn := .bit) (fun _ => ⟨rfl, rfl, rfl⟩) (by decide), fun m s hwf => ?_⟩
  have hnext := bit_fetchesInto.exec_next hwf s
  rw [if_neg Bool.false_ne_true, add_zero] at hnext
  refine ⟨_, hnext, ?temp, ?zero, getFlag_bitStatus .., getFlag_bitStatus .., flagsKept_bitStatus⟩
  case temp =>
    rw [concat_zero]
    rfl
  case zero => exact bitStatus_zero ..

/-! ## The compares -/

/-- The low byte of the 16-bit difference is the byte difference (R167). -/
theorem loByte_zext_sub_zext (r v : Byte) : loByte (zext r - zext v) = r - v := by
  apply BitVec.eq_of_toNat_eq
  rw [toNat_loByte, BitVec.toNat_sub, BitVec.toNat_sub, toNat_zext, toNat_zext]
  omega

theorem toNat_zext_sub_zext (r v : Byte) : (zext r - zext v).toNat = (65536 + r.toNat - v.toNat) % 65536 := by
  rw [BitVec.toNat_sub, toNat_zext, toNat_zext]
  omega

section
variable (r v sr : Byte)

theorem compareStatus_carry (t : Addr) : getFlag (compareStatus r v t sr) .c = true ↔ v.toNat ≤ r.toNat := by
  rw [getFlag_compareStatus]
  exact decide_eq_true_iff

theorem compareStatus_zero : getFlag (compareStatus r v (zext r - zext v) sr) .z = true ↔ r = v := by
  rw [getFlag_compareStatus]
  dsimp only
  rw [beq_iff_eq, loByte_zext_sub_zext, sub_eq_zero]

theorem compareStatus_negative :
    getFlag (compareStatus r v (zext r - zext v) sr) .n = true ↔ 128 ≤ (256 + r.toNat - v.toNat) % 256 := by
  rw [getFlag_compareStatus]
  dsimp only
  rw [← getLsbD_seven_loByte, getLsbD_seven_iff, loByte_zext_sub_zext, BitVec.toNat_sub]
  omega

end

theorem FetchesInto.comparesWith {mk : Operand → Instr} {reg : State → Byte} {pays : Bool}
    (h : FetchesInto mk pays fun v u => compareWith (reg u) v u)
    (hreg : ∀ m s, reg (fetchedState m s) = reg s) : ComparesWith mk reg pays := by
  intro m s hwf
  have hnext := h.exec_next hwf s
  rw [hreg] at hnext
  exact ⟨_, hnext, rfl, toNat_zext_sub_zext .., compareStatus_carry .., compareStatus_zero ..,
    compareStatus_negative .., flagsKept_compareStatus⟩

/-- Settles O38: one rule for the three registers. -/
theorem comparesAreUnsigned : Obligations.ComparesAreUnsigned := by
  refine ⟨?_, ?_, ?_, cmp_fetchesInto.comparesWith fun _ _ => rfl, cpx_fetchesInto.comparesWith fun _ _ => rfl,
    cpy_fetchesInto.comparesWith fun _ _ => rfl⟩
  · exact encodedAs_of_slots (mn := .cmp) (fun _ => ⟨rfl, rfl, rfl⟩) (by decide)
  · exact encodedAs_of_slots (mn := .cpx) (fun _ => ⟨rfl, rfl, rfl⟩) (by decide)
  · exact encodedAs_of_slots (mn := .cpy) (fun _ => ⟨rfl, rfl, rfl⟩) (by decide)

end Sys2Proof.Machine
end

