-- ==== Sys2Proof/Proofs/ShiftRotate.lean ====
section
/-! SUPPORT. The shifts and rotates (43_shift_rotate.md R180 to R184): the shifted word as a number, and the four
instructions by one rule. -/

namespace Sys2Proof.Machine

/-! ## The shifted word and the bit shifted out -/

theorem toNat_carryWord_le_one (sr : Byte) : (carryWord sr).toNat ≤ 1 := by
  rw [toNat_carryWord]
  exact Bool.toNat_le _

/-- A byte shifted left by one does not wrap in 16 bits (R181). -/
theorem toNat_aslWord (v : Byte) : (zext v <<< 1).toNat = 2 * v.toNat := by
  rw [BitVec.toNat_shiftLeft, toNat_zext, Nat.shiftLeft_eq]
  omega

theorem toNat_lsrWord (v : Byte) : (zext v >>> 1).toNat = v.toNat / 2 := by
  rw [BitVec.toNat_ushiftRight, toNat_zext, Nat.shiftRight_one]

/-- The carry as bit 7 (R184). -/
theorem toNat_carryWord_shiftLeft_seven (sr : Byte) : (carryWord sr <<< 7).toNat = 2 ^ 7 * (getFlag sr .c).toNat := by
  have hcarry := toNat_carryWord_le_one sr
  rw [BitVec.toNat_shiftLeft, Nat.shiftLeft_eq, ← toNat_carryWord]
  omega

/-- The old carry enters bit 0, which the left shift has cleared (R183). -/
theorem toNat_rolWord (v sr : Byte) :
    (zext v <<< 1 ||| carryWord sr).toNat = 2 * v.toNat + (getFlag sr .c).toNat := by
  have hcarry : (carryWord sr).toNat < 2 ^ 1 := Nat.lt_succ_of_le (toNat_carryWord_le_one sr)
  rw [BitVec.toNat_or, toNat_aslWord, ← toNat_carryWord]
  exact (Nat.two_pow_add_eq_or_of_lt hcarry _).symm

/-- The old carry enters bit 7, above the shifted byte (R184). -/
theorem toNat_rorWord (v sr : Byte) :
    (carryWord sr <<< 7 ||| zext v >>> 1).toNat = 128 * (getFlag sr .c).toNat + v.toNat / 2 := by
  have hbyte : v.toNat / 2 < 2 ^ 7 := by omega
  rw [BitVec.toNat_or, toNat_carryWord_shiftLeft_seven, toNat_lsrWord]
  exact (Nat.two_pow_add_eq_or_of_lt hbyte _).symm

theorem getLsbD_seven_eq_decide (v : Byte) : v.getLsbD 7 = decide (128 ≤ v.toNat) :=
  Bool.eq_iff_iff.mpr ((getLsbD_seven_iff v).trans decide_eq_true_iff.symm)

theorem getLsbD_zero_eq_decide (v : Byte) : v.getLsbD 0 = decide (v.toNat % 2 = 1) := Nat.testBit_zero _

/-! ## The shared end of the four -/

theorem znOf_shiftStatus (out : Bool) (t : Addr) (sr : Byte) : ZNOf (loByte t) (shiftStatus out t sr) :=
  znOf_of_flags (getFlag_shiftStatus ..) ((getFlag_shiftStatus ..).trans (getLsbD_seven_loByte t).symm)

section
variable (m : Operand) (out : Bool) (t : Addr) (u : State)

/-- Beside A and memory, which the mode chooses between, only `temp` and SR are written (R180). -/
theorem shiftTo_eq :
    shiftTo m out t u =
      { u with
        temp := t, sr := shiftStatus out t u.sr, a := (shiftTo m out t u).a, mem := (shiftTo m out t u).mem } := by
  cases m <;> rfl

@[simp] theorem shiftTo_temp : (shiftTo m out t u).temp = t := by cases m <;> rfl

variable {m}

/-- In Implied mode the low byte goes to A (R180). -/
theorem shiftTo_of_imp (h : m.mode = .imp) :
    (shiftTo m out t u).a = loByte t ∧ (shiftTo m out t u).mem = u.mem := by
  cases m with
  | imp => exact ⟨rfl, rfl⟩
  | _ => cases h

/-- In every other mode the low byte goes to `addr_abs` (R180). -/
theorem shiftTo_of_ne_imp (h : m.mode ≠ .imp) :
    shiftTo m out t u = ((u.setTemp t).setSr (shiftStatus out t u.sr)).store u.addrAbs (loByte t) := by
  cases m with
  | imp => exact absurd rfl h
  | _ => rfl

end

/-! ## The four instructions -/

/-- An instruction that fetches its operand and returns 0 costs no extra cycle (R126, R127). -/
theorem runSlot_withOperand_false {m : Operand} (h : m.mode ≠ .rel) (op : Byte → State → State) (s : State) :
    runSlot m false (withOperand m op) s = .next (op (operandValue m s) (fetchedState m s)) := by
  rw [runSlot_withOperand h, Bool.and_false, if_neg Bool.false_ne_true, add_zero]

/-- The handler of the instructions `mk` fetches the operand and ends in `shiftTo` with the word and the bit shifted out
that it computes from the operand and SR. -/
structure ShiftsInto (mk : Operand → Instr) (bit : Byte → Bool) (word : Byte → Byte → Addr) : Prop where
  exec_eq : ∀ m s, exec (mk m) s = runSlot m false (withOperand m fun v u => shiftTo m (bit v) (word v u.sr) u) s
  mode_ne_rel : ∀ {m}, (mk m).wellFormed = true → m.mode ≠ .rel

theorem ShiftsInto.exec_next {mk : Operand → Instr} {bit : Byte → Bool} {word : Byte → Byte → Addr}
    (h : ShiftsInto mk bit word) {m : Operand} (hwf : (mk m).wellFormed = true) (s : State) :
    exec (mk m) s =
      .next (shiftTo m (bit (operandValue m s)) (word (operandValue m s) s.sr) (fetchedState m s)) :=
  (h.exec_eq m s).trans (runSlot_withOperand_false (h.mode_ne_rel hwf) ..)

theorem asl_shiftsInto : ShiftsInto .asl (·.getLsbD 7) fun v _ => zext v <<< 1 :=
  ⟨fun _ _ => rfl, (mode_ne_rel_of_wellFormed · rfl)⟩

theorem lsr_shiftsInto : ShiftsInto .lsr (·.getLsbD 0) fun v _ => zext v >>> 1 :=
  ⟨fun _ _ => rfl, (mode_ne_rel_of_wellFormed · rfl)⟩

theorem rol_shiftsInto : ShiftsInto .rol (·.getLsbD 7) fun v sr => zext v <<< 1 ||| carryWord sr :=
  ⟨fun _ _ => rfl, (mode_ne_rel_of_wellFormed · rfl)⟩

theorem ror_shiftsInto : ShiftsInto .ror (·.getLsbD 0) fun v sr => carryWord sr <<< 7 ||| zext v >>> 1 :=
  ⟨fun _ _ => rfl, (mode_ne_rel_of_wellFormed · rfl)⟩

/-- The rule of R180 holds where the handler's word and bit shifted out are the rule's numbers. -/
theorem ShiftsInto.shiftsTo {mk : Operand → Instr} {bit : Byte → Bool} {word : Byte → Byte → Addr}
    {result : Nat → Nat → Nat} {out : Nat → Nat → Bool} (h : ShiftsInto mk bit word)
    (hword : ∀ v sr, (word v sr).toNat = result v.toNat (getFlag sr .c).toNat)
    (hout : ∀ v c, bit v = out v.toNat c) : ShiftsTo mk result out := by
  intro m s hwf hmem
  have hbyte : BitVec.ofNat 8 (result (operandValue m s).toNat (getFlag s.sr .c).toNat) =
      loByte (word (operandValue m s) s.sr) := by
    rw [← hword, BitVec.ofNat_toNat, loByte]
  refine ⟨_, h.exec_next hwf s, ?_⟩
  simp only [hbyte, State.flag, shiftTo_temp, shiftTo_sr]
  refine ⟨shiftTo_eq .., hword .., (getFlag_shiftStatus ..).trans (hout ..), znOf_shiftStatus .., flagsKept_shiftStatus,
    shiftTo_of_imp _ _ _, fun hmode => ?memory⟩
  case memory =>
    rw [shiftTo_of_ne_imp _ _ _ hmode]
    exact ⟨rfl, load_store (by exact hmem) _ _⟩

/-- Settles O39: the two words are the operand doubled and halved, and the bits shifted out its top and bottom bit. -/
theorem aslAndLsrShift : Obligations.AslAndLsrShift := by
  refine ⟨?_, ?_, ?_, ?_⟩
  · exact encodedAs_of_slots (mn := .asl) (fun _ => ⟨rfl, rfl, rfl⟩) (by decide)
  · exact encodedAs_of_slots (mn := .lsr) (fun _ => ⟨rfl, rfl, rfl⟩) (by decide)
  · exact asl_shiftsInto.shiftsTo (fun v _ => toNat_aslWord v) fun v _ => getLsbD_seven_eq_decide v
  · exact lsr_shiftsInto.shiftsTo (fun v _ => toNat_lsrWord v) fun v _ => getLsbD_zero_eq_decide v

/-- Settles O40: as the shifts, with the old carry in the bit that the shift leaves free. -/
theorem rolAndRorRotateThroughCarry : Obligations.RolAndRorRotateThroughCarry := by
  refine ⟨?_, ?_, ?_, ?_⟩
  · exact encodedAs_of_slots (mn := .rol) (fun _ => ⟨rfl, rfl, rfl⟩) (by decide)
  · exact encodedAs_of_slots (mn := .ror) (fun _ => ⟨rfl, rfl, rfl⟩) (by decide)
  · exact rol_shiftsInto.shiftsTo toNat_rolWord fun v _ => getLsbD_seven_eq_decide v
  · exact ror_shiftsInto.shiftsTo toNat_rorWord fun v _ => getLsbD_zero_eq_decide v

end Sys2Proof.Machine
end

