-- ==== Sys2Proof/Proofs/IncrementDecrement.lean ====
section
/-! SUPPORT. Increment and decrement (44_increment_decrement.md R190 to R195): INC and DEC by one rule, and the four
register steps. -/

namespace Sys2Proof.Machine

/-! ## One up and one down, as numbers -/

/-- A byte one up does not wrap in 16 bits (R190). -/
theorem toNat_zext_add_one (v : Byte) : (zext v + 1).toNat = v.toNat + 1 := by
  have hv := toNat_zext v
  bv_omega

/-- 0x00 one down wraps to 0xFFFF in `temp` (R191). -/
theorem toNat_zext_sub_one (v : Byte) : (zext v - 1).toNat = (v.toNat + 65535) % 65536 := by
  have hv := toNat_zext v
  bv_omega

theorem toNat_sub_one (v : Byte) : (v - 1).toNat = (v.toNat + 255) % 256 := by bv_omega

/-! ## INC and DEC -/

/-- The byte that INC or DEC writes back, and every other byte as it was (R62, R190). -/
theorem load_storeZN_eq {u : State} (h : u.mem.wf = true) (t b : Addr) :
    (storeZN t u).load b = if b = u.addrAbs then loByte t else u.load b := by
  rw [storeZN, State.load_setSr, load_store (by exact h), State.load_setTemp]

theorem inc_fetchesInto : FetchesInto .inc false fun v => storeZN (zext v + 1) :=
  ⟨fun _ _ => rfl, (mode_ne_rel_of_wellFormed · rfl), fun _ _ => rfl⟩

theorem dec_fetchesInto : FetchesInto .dec false fun v => storeZN (zext v - 1) :=
  ⟨fun _ _ => rfl, (mode_ne_rel_of_wellFormed · rfl), fun _ _ => rfl⟩

/-- The rule of R190 and R191 holds where the handler's word is the rule's number. -/
theorem FetchesInto.stepsMemory {mk : Operand → Instr} {word : Byte → Addr} {result : Nat → Nat}
    (h : FetchesInto mk false fun v => storeZN (word v)) (hword : ∀ v, (word v).toNat = result v.toNat) :
    StepsMemory mk result := by
  intro m s hwf hmem
  have hbyte : BitVec.ofNat 8 (result (operandValue m s).toNat) = loByte (word (operandValue m s)) := by
    rw [← hword, BitVec.ofNat_toNat, loByte]
  have hnext := h.exec_next hwf s
  rw [if_neg Bool.false_ne_true, add_zero] at hnext
  refine ⟨_, hnext, ?_⟩
  rw [hbyte]
  exact ⟨rfl, hword _, load_storeZN_eq (by exact hmem) _, znOf_setZN .., flagsKept_setZN⟩

/-- Settles O41: `temp` is the operand one up or one down in 16 bits, and its low byte goes back with Z and N. -/
theorem incAndDecStepMemory : Obligations.IncAndDecStepMemory := by
  refine ⟨?_, ?_, inc_fetchesInto.stepsMemory toNat_zext_add_one, dec_fetchesInto.stepsMemory toNat_zext_sub_one⟩
  · exact encodedAs_of_slots (mn := .inc) (fun _ => ⟨rfl, rfl, rfl⟩) (by decide)
  · exact encodedAs_of_slots (mn := .dec) (fun _ => ⟨rfl, rfl, rfl⟩) (by decide)

/-! ## The register steps -/

/-- Settles O42: each is an Implied instruction whose operation is `setXZN` or `setYZN` of the stepped register. -/
theorem registerSteps : Obligations.RegisterSteps := by
  refine ⟨⟨rfl, rfl⟩, ⟨rfl, rfl⟩, ⟨rfl, rfl⟩, ⟨rfl, rfl⟩, fun s => ⟨?inx, ?iny, ?dex, ?dey⟩⟩
  case inx => exact ⟨_, runSlot_imp .., rfl, BitVec.toNat_add .., znOf_setZN .., flagsKept_setZN⟩
  case iny => exact ⟨_, runSlot_imp .., rfl, BitVec.toNat_add .., znOf_setZN .., flagsKept_setZN⟩
  case dex => exact ⟨_, runSlot_imp .., rfl, toNat_sub_one .., znOf_setZN .., flagsKept_setZN⟩
  case dey => exact ⟨_, runSlot_imp .., rfl, toNat_sub_one .., znOf_setZN .., flagsKept_setZN⟩

end Sys2Proof.Machine
end

