-- ==== Sys2Proof/Proofs/BranchJump.lean ====
section
/-! SUPPORT. Branches and jumps (45_branch_jump.md R200 to R210): the eight branches by one rule on the flag, and JMP from
the address that its resolver computes. -/

namespace Sys2Proof.Machine

/-! ## The branches -/

/-- A branch is `Branch(cond)` after the Relative resolver, with no cycle from `e1 & e2` (R200, R209). -/
theorem branchOn_eq (f : Flag) (on : Bool) (dd : Byte) (s : State) :
    branchOn f on dd s = .next (branchIf (s.flag f == on) { s with pc := s.pc + 1, addrRel := sext dd }) := rfl

/-- A taken branch puts its target in PC and `addr_abs` and pays 1 cycle in the page of PC, 2 in another (R200). -/
theorem branchIf_true (u : State) :
    branchIf true u =
      { u with
        addrAbs := u.pc + u.addrRel, pc := u.pc + u.addrRel
        cycles := u.cycles + if hiByte (u.pc + u.addrRel) = hiByte u.pc then 1 else 2 } := by
  have hcycles := branchIf_cycles true u
  rw [if_pos rfl] at hcycles
  rw [← hcycles]
  rfl

/-- The rule of R200 holds of an instruction whose handler is `Branch` on its flag. -/
theorem branchesOn_of_branchOn {mk : Byte → Instr} {op : Byte} {f : Flag} {on : Bool} (hbase : (descriptor op).base = 2)
    (hencode : ∀ dd, encode (mk dd) = [op, dd]) (hexec : ∀ dd s, exec (mk dd) s = branchOn f on dd s) :
    BranchesOn mk op f on := by
  refine ⟨hbase, fun dd s => ⟨hencode dd, fun htaken => ?taken, fun hnot => ?notTaken⟩⟩
  case taken =>
    rw [hexec, branchOn_eq, beq_iff_eq.mpr htaken, branchIf_true]
    exact ⟨_, rfl, rfl, rfl, rfl⟩
  case notTaken => rw [hexec, branchOn_eq, beq_false_of_ne hnot, branchIf_false]

/-- Settles O43: each of the eight handlers is `Branch` on its flag's value. -/
theorem branchesGoWhereTheySay : Obligations.BranchesGoWhereTheySay := by
  refine ⟨?bcc, ?bcs, ?beq, ?bmi, ?bne, ?bpl, ?bvc, ?bvs⟩ <;>
    exact branchesOn_of_branchOn rfl (fun _ => rfl) fun _ _ => rfl

/-! ## JMP -/

/-- JMP goes to the address its resolver latches, with no extra cycle (R210). -/
theorem exec_jmp_of_effectiveAddress {m : Operand} {s : State} {target : Addr} (hrel : m.mode ≠ .rel)
    (himp : m.mode ≠ .imp) (h : effectiveAddress m s = target) :
    exec (.jmp m) s = .next { s with addrAbs := target, pc := target } := by
  rw [exec, execJmp, runSlot, Bool.and_false, resolve_of_effectiveAddress hrel himp h]
  rfl

/-- Settles O44: the target is the operand, or the word that the Indirect resolver reads (R149). -/
theorem jmpGoesToItsTarget : Obligations.JmpGoesToItsTarget := by
  refine ⟨?encoding, rfl, rfl, fun s => ⟨fun w => ?absolute, fun lo hi => ?indirect⟩⟩
  case encoding => exact encodedAs_of_slots (mn := .jmp) (fun _ => ⟨rfl, rfl, rfl⟩) (by decide)
  case absolute => exact exec_jmp_of_effectiveAddress nofun nofun rfl
  case indirect => exact exec_jmp_of_effectiveAddress nofun nofun (effectiveAddress_ind_concat lo hi s)

end Sys2Proof.Machine
end

