-- ==== Sys2Proof/Proofs/StackSubroutine.lean ====
section
/-! SUPPORT. The stack and the subroutine instructions (46_stack_subroutine.md R220 to R227): what an Implied
instruction leaves, the stack at the spec's own addresses, and each push with its pull. -/

namespace Sys2Proof.Machine

/-! ## An Implied instruction -/

/-- An official Implied instruction is its operation once A is latched in `fetched`, at no extra cycle (R123, R140). -/
theorem exec_of_imp {i : Instr} (hofficial : isIllegal i = false) (himp : i.operand = .imp) (s : State) :
    exec i s = .next (operation i (s.setFetched s.a)) := by
  rw [exec_official hofficial, result, himp]
  rfl

/-! ## The stack at the spec's addresses (R25, R70) -/

theorem stackAddr_eq_concat (sp : Byte) : stackAddr sp = concat 1 sp :=
  BitVec.eq_of_toNat_eq (by rw [toNat_stackAddr, toNat_concat]; rfl)

/-- Two slots of the stack whose SP values differ are two bytes, also where SP wraps. -/
theorem not_stackAddr_of_stackAddr {p q : Byte} (h : p ≠ q) {b : Addr} (hp : b = stackAddr p) : ¬b = stackAddr q :=
  fun hq => h (stackAddr_inj.mp (hp.symm.trans hq))

theorem pop_pop (s : State) : pop (pop s) = s.setSp (s.sp + 2) := by
  have htwo : s.sp + 1 + 1 = s.sp + 2 := by bv_omega
  rw [← htwo]
  rfl

theorem pulled_eq (s : State) : pulled s = s.load (concat 1 (s.sp + 1)) := by rw [pulled, stackAddr_eq_concat]

theorem pulledWord_eq (s : State) :
    pulledWord s = concat (s.load (concat 1 (s.sp + 2))) (s.load (concat 1 (s.sp + 1))) := by
  have htwo : (pop s).sp + 1 = s.sp + 2 := by rw [pop, State.setSp_sp]; bv_omega
  rw [pulledWord, pulled_eq, pulled_eq, htwo]
  rfl

/-- Each byte after a push of `v` by an Implied instruction (R70). -/
theorem load_push_setFetched {s : State} (h : s.mem.wf = true) (f v : Byte) (b : Addr) :
    (push v (s.setFetched f)).load b = if b = concat 1 s.sp then v else s.load b := by
  rw [load_push (by exact h), State.setFetched_sp, State.load_setFetched, stackAddr_eq_concat]

/-- Each byte after a word is pushed, in the order of the pushes (R65). -/
theorem load_pushWord_highFirst {s : State} (h : s.mem.wf = true) (w b : Addr) :
    (pushWord w s).load b =
      if b = stackAddr s.sp then hiByte w else if b = stackAddr (s.sp - 1) then loByte w else s.load b := by
  have hne : s.sp ≠ s.sp - 1 := by bv_omega
  rw [load_pushWord h, ite_ite_comm _ _ _ _ (not_stackAddr_of_stackAddr hne.symm)]

/-! ## PHA, PHP, PLA, PLP -/

/-- The copy PHP pushes, in the spec's bits (R221). -/
theorem phpCopy_eq (sr : Byte) : phpCopy sr = sr ||| 0x30 := BitVec.or_assoc ..

/-- Settles O45: PHP's copy is SR with two bits set, and PLA is a load of the pulled byte. -/
theorem phpPushesAndPlaPulls : Obligations.PhpPushesAndPlaPulls := by
  refine ⟨⟨rfl, rfl⟩, ⟨rfl, rfl⟩, fun s hwf => ?php, fun s => ?pla⟩
  case php =>
    refine ⟨_, exec_of_imp rfl rfl s, rfl, fun b => ?_⟩
    rw [← phpCopy_eq]
    exact load_push_setFetched hwf ..
  case pla =>
    dsimp only
    rw [exec_of_imp rfl rfl, operation, pulled_eq]
    exact ⟨_, rfl, rfl, znOf_setZN .., flagsKept_setZN⟩

theorem flagsKept_plpStatus (v : Byte) : FlagsKept [.u] v (plpStatus v) := by
  intro f hf
  rw [getFlag_plpStatus, if_neg (List.mem_singleton.not.mp hf)]

/-- Settles O46: PHA pushes A itself, and PLP's status differs from the pulled byte in U alone. -/
theorem phaPushesAndPlpPulls : Obligations.PhaPushesAndPlpPulls := by
  refine ⟨⟨rfl, rfl⟩, ⟨rfl, rfl⟩, fun s hwf => ?pha, fun s => ?plp⟩
  case pha => exact ⟨_, exec_of_imp rfl rfl s, rfl, fun _ => load_push_setFetched hwf ..⟩
  case plp =>
    rw [exec_of_imp rfl rfl, operation, pulled_eq]
    exact ⟨_, rfl, rfl, getFlag_plpStatus .., flagsKept_plpStatus _⟩

/-- The next pull after a push returns the pushed byte, whatever A the pulling instruction latches (R70, R140). -/
theorem pulled_push_setFetched {s : State} (h : s.mem.wf = true) (f v : Byte) :
    pulled ((push v s).setFetched f) = v :=
  pulled_push h v

/-- PHP forces B and U in the copy, and PLP forces U again (R221, R223). -/
theorem flagsKept_plpStatus_phpCopy (sr : Byte) : FlagsKept [.b, .u] sr (plpStatus (phpCopy sr)) := by
  intro f hf; cases f <;> simp at hf ⊢

/-- Settles O47: the pull returns the pushed byte, A or SR with B and U set. -/
theorem pushThenPullRestores : Obligations.PushThenPullRestores := by
  intro s hwf
  refine ⟨⟨_, _, exec_of_imp rfl rfl s, exec_of_imp rfl rfl _, ?accumulator⟩,
    ⟨_, _, exec_of_imp rfl rfl s, exec_of_imp rfl rfl _, ?status⟩⟩
  case accumulator =>
    rw [operation, operation, pulled_push_setFetched (by exact hwf)]
    exact ⟨rfl, BitVec.sub_add_cancel .., znOf_setZN .., flagsKept_setZN⟩
  case status =>
    rw [operation, operation, pulled_push_setFetched (by exact hwf)]
    exact ⟨BitVec.sub_add_cancel .., (getFlag_plpStatus ..).trans (getFlag_phpCopy ..), getFlag_plpStatus ..,
      flagsKept_plpStatus_phpCopy _⟩

/-! ## JSR and RTS -/

/-- PC past JSR, less one, is the address of its last byte (R225, D12). -/
theorem exec_jsr (w : Addr) (s : State) :
    exec (.jsr w) s = .next { pushWord (s.pc + 1) s with addrAbs := w, pc := w } := by
  have hlast : s.pc + 2 - 1 = s.pc + 1 := by bv_omega
  rw [exec_official rfl, ← hlast]
  rfl

theorem exec_rts (s : State) :
    exec .rts s = .next
      { s with
        fetched := s.a, sp := s.sp + 2
        pc := concat (s.load (concat 1 (s.sp + 2))) (s.load (concat 1 (s.sp + 1))) + 1 } := by
  rw [exec_of_imp rfl rfl, operation, pop_pop, pulledWord_eq]
  rfl

/-- Settles O48: the word pushed is the address of JSR's last byte, and a push changes no other byte. -/
theorem jsrPushesItsLastByte : Obligations.JsrPushesItsLastByte := by
  refine ⟨fun _ => rfl, rfl, fun w s hwf => ⟨_, exec_jsr w s, ?state, fun b => ?byte⟩⟩
  case state =>
    have htwo : s.sp - 1 - 1 = s.sp - 2 := by bv_omega
    rw [pushWord_eq, htwo]
  case byte =>
    rw [← stackAddr_eq_concat, ← stackAddr_eq_concat]
    exact load_pushWord_highFirst hwf ..

/-- Settles O49: the whole next state is RTS's own equation. -/
theorem rtsContinuesPastThePulledWord : Obligations.RtsContinuesPastThePulledWord :=
  ⟨⟨rfl, rfl⟩, exec_rts⟩

/-- Settles O50: RTS pulls the word that JSR pushed, the address of JSR's last byte. -/
theorem jsrThenRtsReturns : Obligations.JsrThenRtsReturns := by
  intro w s t t' hwf hjsr hsp hhi hlo
  obtain ⟨-, -, hrule⟩ := jsrPushesItsLastByte
  obtain ⟨t, hjsr', hstate, hbytes⟩ := hrule w s hwf
  cases hjsr.symm.trans hjsr'
  have htsp : t'.sp = s.sp - 2 := by rw [hsp, hstate]
  have hlast : s.sp - 2 + 2 = s.sp := BitVec.sub_add_cancel ..
  have hfirst : s.sp - 2 + 1 = s.sp - 1 := by bv_omega
  have hslots : concat 1 (s.sp - 1) ≠ concat 1 s.sp := by
    rw [← stackAddr_eq_concat, ← stackAddr_eq_concat]
    exact not_stackAddr_of_stackAddr (by bv_omega) rfl
  have hpast : s.pc + 1 + 1 = s.pc + 2 := by bv_omega
  refine ⟨_, exec_rts t', ?pc, ?sp⟩
  case pc =>
    rw [htsp, hlast, hfirst, hhi, hlo, hbytes, hbytes, if_pos rfl, if_neg hslots, if_pos rfl, concat_hiByte_loByte,
      hpast]
  case sp => rw [htsp, hlast]

end Sys2Proof.Machine
end

