-- ==== Sys2Proof/Proofs/InterruptFrame.lean ====
section
/-! SUPPORT. The frame that an interrupt entry stacks and RTI pulls (46_stack_subroutine.md R228 to R230): BRK, RTI, and
the return after each entry. -/

namespace Sys2Proof.Machine

/-! ## The frame -/

/-- An interrupt entry stacks its frame at SP, SP - 1 and SP - 2, also where SP wraps (R228, R303). -/
theorem stacksFrame_enterInterrupt {s : State} (h : s.mem.wf = true) (ret : Addr) (copy live : Byte) (vector : Addr) :
    StacksFrame ret copy s (enterInterrupt ret copy live vector s) := by
  intro b
  have htwo : (pushWord ret s).sp = s.sp - 2 := by rw [pushWord_eq]; bv_omega
  have hzero : s.sp - 2 ≠ s.sp := by bv_omega
  have hone : s.sp - 2 ≠ s.sp - 1 := by bv_omega
  rw [State.load, enterInterrupt_mem, ← State.load, load_push (wf_pushWord h _), load_pushWord_highFirst h, htwo,
    ite_ite_comm _ _ _ _ (not_stackAddr_of_stackAddr hzero), ite_ite_comm _ _ _ _ (not_stackAddr_of_stackAddr hone)]

/-- The next state of an interrupt entry through a vector outside the stack page (R71, R228, R303 to R306). -/
theorem enterInterrupt_of_vector {s : State} (h : s.mem.wf = true) (ret : Addr) (copy live : Byte) {vector : Addr}
    (hv : 512 ≤ vector.toNat) (hv' : 512 ≤ (vector + 1).toNat) :
    enterInterrupt ret copy live vector s =
      { s with
        pc := s.readVector vector, sp := s.sp - 3, sr := live
        mem := (enterInterrupt ret copy live vector s).mem } := by
  have hthree : s.sp - 1 - 1 - 1 = s.sp - 3 := by bv_omega
  have hpc := enterInterrupt_pc h ret copy live hv hv'
  simp only [enterInterrupt_eq] at hpc
  rw [enterInterrupt_mem, enterInterrupt_eq, hthree, hpc]

theorem enterInterrupt_sp (ret : Addr) (copy live : Byte) (vector : Addr) (s : State) :
    (enterInterrupt ret copy live vector s).sp = s.sp - 3 := by
  rw [enterInterrupt_eq]
  bv_omega

theorem interruptEntry_sp (vector : Addr) (s : State) : (interruptEntry vector s).sp = s.sp - 3 := by
  rw [interruptEntry, State.setCycles_sp, enterInterrupt_sp]

/-- The three bytes of a frame that is still untouched in `t'` (R230). -/
theorem FrameUntouched.load_eq {ret : Addr} {copy : Byte} {s t t' : State} (hkept : FrameUntouched s t t')
    (hframe : StacksFrame ret copy s t) :
    t'.load (stackAddr s.sp) = hiByte ret ∧ t'.load (stackAddr (s.sp - 1)) = loByte ret ∧
      t'.load (stackAddr (s.sp - 2)) = copy := by
  obtain ⟨-, hhi, hlo, hcopy⟩ := hkept
  have hlo_hi : s.sp - 1 ≠ s.sp := by bv_omega
  have hcopy_hi : s.sp - 2 ≠ s.sp := by bv_omega
  have hcopy_lo : s.sp - 2 ≠ s.sp - 1 := by bv_omega
  refine ⟨hhi.trans ?_, hlo.trans ?_, hcopy.trans ?_⟩
  · rw [hframe, if_pos rfl]
  · rw [hframe, if_neg (not_stackAddr_of_stackAddr hlo_hi rfl), if_pos rfl]
  · rw [hframe, if_neg (not_stackAddr_of_stackAddr hcopy_hi rfl), if_neg (not_stackAddr_of_stackAddr hcopy_lo rfl),
      if_pos rfl]

/-- The frame of `irq()` and `nmi()`; the 7 cycles change no byte (R303, R307). -/
theorem stacksFrame_interruptEntry {s : State} (h : s.mem.wf = true) (vector : Addr) :
    StacksFrame s.pc (interruptCopy s.sr) s (interruptEntry vector s) := fun b => by
  rw [interruptEntry, State.load_setCycles]
  exact stacksFrame_enterInterrupt h _ _ _ _ b

/-! ## RTI and BRK -/

theorem exec_rti (s : State) :
    exec .rti s = .next
      { s with
        fetched := s.a, sp := s.sp + 3, sr := rtiStatus (s.load (concat 1 (s.sp + 1)))
        pc := concat (s.load (concat 1 (s.sp + 3))) (s.load (concat 1 (s.sp + 2))) } := by
  have htwo : s.sp + 1 + 1 = s.sp + 2 := by bv_omega
  have hthree : s.sp + 2 + 1 = s.sp + 3 := by bv_omega
  rw [exec_of_imp rfl rfl, operation, returnFromInterrupt_eq]
  simp only [State.setFetched_sp, State.load_setFetched, htwo, hthree, stackAddr_eq_concat]
  rfl

theorem flagsKept_rtiStatus (v : Byte) : FlagsKept [.b, .u] v (rtiStatus v) := by
  intro f hf; cases f <;> simp at hf ⊢

/-- Settles O52: RTI's own equation, and the flags of the status it makes of the pulled byte. -/
theorem rtiRestoresStatusAndPc : Obligations.RtiRestoresStatusAndPc :=
  ⟨⟨rfl, rfl⟩, fun s => ⟨_, exec_rti s, rfl, getFlag_rtiStatus .., getFlag_rtiStatus .., flagsKept_rtiStatus _⟩⟩

/-- The copy BRK pushes, in the spec's bits (R228). -/
theorem brkCopy_eq (sr : Byte) : brkCopy sr = sr ||| 0x14 := BitVec.or_assoc ..

/-- BRK's next state: the interrupt entry returning past the signature byte, through 0xFFFE (R228, D2). -/
theorem exec_brk (s : State) : exec .brk s = .next (breakEntry (s.setFetched s.a)) := exec_of_imp rfl rfl s

theorem breakEntry_sp (s : State) : (breakEntry s).sp = s.sp - 3 := enterInterrupt_sp ..

/-- BRK's frame holds the opcode's address + 2 and the copy with B and I set; A in `fetched` is no byte of it (R228). -/
theorem stacksFrame_brk {s : State} (h : s.mem.wf = true) :
    StacksFrame (s.pc + 1) (brkCopy s.sr) s (breakEntry (s.setFetched s.a)) :=
  stacksFrame_enterInterrupt (s := s.setFetched s.a) h _ _ _ _

/-- Settles O51: BRK is the shared interrupt entry with its own return address and status bytes. -/
theorem brkIsTheSoftwareInterrupt : Obligations.BrkIsTheSoftwareInterrupt := by
  refine ⟨⟨rfl, rfl⟩, fun s hwf => ⟨_, exec_brk s, ?state, ?frame, ?i, ?b, ?kept⟩⟩
  case state => exact enterInterrupt_of_vector (s := s.setFetched s.a) hwf _ _ _ (by decide) (by decide)
  case frame =>
    rw [← brkCopy_eq]
    exact stacksFrame_brk hwf
  case i =>
    rw [State.flag, breakEntry_sr]
    exact getFlag_brkStatus ..
  case b =>
    rw [State.flag, breakEntry_sr]
    exact getFlag_brkStatus ..
  case kept =>
    rw [breakEntry_sr]
    exact flagsKept_brkStatus

/-! ## The return from an untouched frame -/

/-- RTI over an untouched frame goes to the return address with SP back, and SR is the stacked copy with B cleared and U
set (R229, R230). -/
theorem exec_rti_of_frameUntouched {ret : Addr} {copy : Byte} {s t t' : State} (hsp : t.sp = s.sp - 3)
    (hframe : StacksFrame ret copy s t) (hkept : FrameUntouched s t t') :
    exec .rti t' = .next { t' with fetched := t'.a, sp := s.sp, sr := rtiStatus copy, pc := ret } := by
  obtain ⟨hhi, hlo, hcopy⟩ := hkept.load_eq hframe
  obtain ⟨hsp', -⟩ := hkept
  have hfirst : s.sp - 3 + 1 = s.sp - 2 := by bv_omega
  have hsecond : s.sp - 3 + 2 = s.sp - 1 := by bv_omega
  have hthird : s.sp - 3 + 3 = s.sp := by bv_omega
  rw [exec_rti, hsp', hsp, hfirst, hsecond, hthird]
  simp only [← stackAddr_eq_concat, hhi, hlo, hcopy, concat_hiByte_loByte]

/-- The copy that `irq()` and `nmi()` stack has B cleared and U set, as RTI makes them (R229, R303). -/
theorem flagsKept_rtiStatus_interruptCopy (sr : Byte) : FlagsKept [.b, .u] sr (rtiStatus (interruptCopy sr)) :=
  fun f hf => (flagsKept_rtiStatus _ f hf).trans (flagsKept_rtiStatus sr f hf)

/-- The copy that BRK stacks has I set, which RTI keeps (R228, R229). -/
theorem flagsKept_rtiStatus_brkCopy (sr : Byte) : FlagsKept [.b, .u, .i] sr (rtiStatus (brkCopy sr)) := by
  intro f hf; cases f <;> simp at hf ⊢

/-- Settles O19: each entry is the shared one, and the status RTI makes of the stacked copy has the flags of SR before
it, but for those the entry and RTI force. -/
theorem interruptEntryAndReturn : Obligations.InterruptEntryAndReturn := by
  intro s t t' hwf hkept
  refine ⟨fun k hmask hdrive => ?call, fun hbrk => ?brk⟩
  case call =>
    obtain ⟨-, ⟨hirq, hi, -⟩ | ⟨vector, rfl⟩⟩ := interruptCall_next hdrive
    · exact absurd hi (ne_true_of_eq_false (hmask hirq))
    · exact ⟨_, exec_rti_of_frameUntouched (interruptEntry_sp vector s) (stacksFrame_interruptEntry hwf vector) hkept,
        rfl, rfl, getFlag_rtiStatus .., getFlag_rtiStatus .., flagsKept_rtiStatus_interruptCopy _⟩
  case brk =>
    cases (exec_brk s).symm.trans hbrk
    have hsp : (breakEntry (s.setFetched s.a)).sp = s.sp - 3 := breakEntry_sp _
    exact ⟨_, exec_rti_of_frameUntouched hsp (stacksFrame_brk hwf) hkept, rfl, rfl,
      getFlag_rtiStatus .., getFlag_rtiStatus .., (getFlag_rtiStatus ..).trans (getFlag_brkCopy ..),
      flagsKept_rtiStatus_brkCopy _⟩

end Sys2Proof.Machine
end

