-- ==== Sys2Proof/Proofs/LoadStoreTransfer.lean ====
section
/-! SUPPORT. Loads, stores and register transfers (47_load_store_transfer.md R240 to R251): the loads as fetching
instructions, the stores by one rule on the register, and the transfers as Implied instructions. -/

namespace Sys2Proof.Machine

/-! ## Loads -/

theorem lda_fetchesInto : FetchesInto .lda true setAZN :=
  ⟨fun _ _ => rfl, (mode_ne_rel_of_wellFormed · rfl), fun _ _ => rfl⟩

theorem ldx_fetchesInto : FetchesInto .ldx true setXZN :=
  ⟨fun _ _ => rfl, (mode_ne_rel_of_wellFormed · rfl), fun _ _ => rfl⟩

theorem ldy_fetchesInto : FetchesInto .ldy true setYZN :=
  ⟨fun _ _ => rfl, (mode_ne_rel_of_wellFormed · rfl), fun _ _ => rfl⟩

/-- Settles O53: each load hands its operand to the operation that writes its register with Z and N. -/
theorem loadsPutTheOperand : Obligations.LoadsPutTheOperand := by
  refine ⟨?_, ?_, ?_, ?lda, fun m s hwf => ?ldx, fun m s hwf => ?ldy⟩
  · exact encodedAs_of_slots (mn := .lda) (fun _ => ⟨rfl, rfl, rfl⟩) (by decide)
  · exact encodedAs_of_slots (mn := .ldx) (fun _ => ⟨rfl, rfl, rfl⟩) (by decide)
  · exact encodedAs_of_slots (mn := .ldy) (fun _ => ⟨rfl, rfl, rfl⟩) (by decide)
  case lda => exact FetchesInto.putsInA (value := fun _ v => v) lda_fetchesInto
  case ldx => exact ⟨_, ldx_fetchesInto.exec_next hwf s, rfl, znOf_setZN .., flagsKept_setZN⟩
  case ldy => exact ⟨_, ldy_fetchesInto.exec_next hwf s, rfl, znOf_setZN .., flagsKept_setZN⟩

/-! ## Stores -/

/-- The handler of the instructions `mk` stores the byte of `reg` at the resolved address and returns 0 (R127, R243). -/
structure StoresFrom (mk : Operand → Instr) (reg : State → Byte) : Prop where
  exec_eq : ∀ m s, exec (mk m) s = runSlot m false (fun u => u.store u.addrAbs (reg u)) s
  mode_ne_rel : ∀ {m}, (mk m).wellFormed = true → m.mode ≠ .rel
  mode_ne_imp : ∀ {m}, (mk m).wellFormed = true → m.mode ≠ .imp
  reg_resolvedState : ∀ m s, reg (resolvedState m s) = reg s

theorem sta_storesFrom : StoresFrom .sta State.a :=
  ⟨fun _ _ => rfl, (mode_ne_of_wellFormed · rfl), (mode_ne_of_wellFormed · rfl), fun _ _ => rfl⟩

theorem stx_storesFrom : StoresFrom .stx State.x :=
  ⟨fun _ _ => rfl, (mode_ne_of_wellFormed · rfl), (mode_ne_of_wellFormed · rfl), fun _ _ => rfl⟩

theorem sty_storesFrom : StoresFrom .sty State.y :=
  ⟨fun _ _ => rfl, (mode_ne_of_wellFormed · rfl), (mode_ne_of_wellFormed · rfl), fun _ _ => rfl⟩

/-- The next state: the resolved one with the register's byte stored, at no extra cycle. -/
theorem StoresFrom.exec_next {mk : Operand → Instr} {reg : State → Byte} (h : StoresFrom mk reg) {m : Operand}
    (hwf : (mk m).wellFormed = true) (s : State) :
    exec (mk m) s = .next ((resolvedState m s).store (effectiveAddress m s) (reg s)) := by
  rw [h.exec_eq, runSlot, Bool.and_false, resolve_eq m s (h.mode_ne_rel hwf) (h.mode_ne_imp hwf),
    h.reg_resolvedState]
  rfl

theorem StoresFrom.storesReg {mk : Operand → Instr} {reg : State → Byte} (h : StoresFrom mk reg) :
    StoresReg mk reg :=
  fun m s hwf hmem => ⟨_, h.exec_next hwf s, rfl, load_store (s := resolvedState m s) hmem _ _⟩

/-- Settles O54: one rule for the three registers; the counts and the missing Immediate slot are the table's. -/
theorem storesWriteTheRegister : Obligations.StoresWriteTheRegister := by
  refine ⟨?_, ?_, ?_, rfl, rfl, rfl, fun _ => rfl, rfl, sta_storesFrom.storesReg, stx_storesFrom.storesReg,
    sty_storesFrom.storesReg⟩
  · exact encodedAs_of_slots (mn := .sta) (fun _ => ⟨rfl, rfl, rfl⟩) (by decide)
  · exact encodedAs_of_slots (mn := .stx) (fun _ => ⟨rfl, rfl, rfl⟩) (by decide)
  · exact encodedAs_of_slots (mn := .sty) (fun _ => ⟨rfl, rfl, rfl⟩) (by decide)

/-! ## Transfers -/

/-- Settles O55: each is an Implied instruction whose operation copies the source, with Z and N for all but TXS. -/
theorem transfersCopyRegisters : Obligations.TransfersCopyRegisters := by
  refine ⟨⟨rfl, rfl⟩, ⟨rfl, rfl⟩, ⟨rfl, rfl⟩, ⟨rfl, rfl⟩, ⟨rfl, rfl⟩, ⟨rfl, rfl⟩,
    fun s => ⟨?tax, ?tay, ?txa, ?tya, ?tsx, exec_of_imp rfl rfl s⟩⟩ <;>
    exact ⟨_, exec_of_imp rfl rfl s, rfl, znOf_setZN .., flagsKept_setZN⟩

end Sys2Proof.Machine
end

