-- ==== Sys2Proof/Proofs/FlagsNopIllegal.lean ====
section
/-! SUPPORT. Flag instructions, NOP and the illegal slots (48_flags_nop_illegal.md R260 to R272): the seven flag
instructions by one rule, and what a dispatch and a `clock()` do with an illegal slot under each policy. -/

namespace Sys2Proof.Machine

/-! ## Flag instructions and NOP -/

/-- A flag instruction sets its flag and latches A; every other flag is kept (R260 to R266). -/
theorem flagTo_writes (f : Flag) (on : Bool) (s : State) :
    ∃ t, flagTo f on s = .next t ∧ t = { s with fetched := s.a, sr := t.sr } ∧
      t.flag f = on ∧ FlagsKept [f] s.sr t.sr :=
  ⟨_, runSlot_imp .., rfl, (getFlag_setFlag ..).trans (if_pos rfl), flagsKept_setFlag⟩

/-- Settles O56: each of the seven handlers is `flagTo` with the flag and value of its row. -/
theorem flagInstructionsWriteOneFlag : Obligations.FlagInstructionsWriteOneFlag := by
  refine ⟨⟨rfl, rfl⟩, ⟨rfl, rfl⟩, ⟨rfl, rfl⟩, ⟨rfl, rfl⟩, ⟨rfl, rfl⟩, ⟨rfl, rfl⟩, ⟨rfl, rfl⟩,
    fun i f on hrow s => ?_⟩
  have hexec : exec i s = flagTo f on s := by
    simp only [List.mem_cons, Prod.mk.injEq, List.not_mem_nil, or_false] at hrow
    rcases hrow with ⟨rfl, rfl, rfl⟩ | ⟨rfl, rfl, rfl⟩ | ⟨rfl, rfl, rfl⟩ | ⟨rfl, rfl, rfl⟩ | ⟨rfl, rfl, rfl⟩ |
      ⟨rfl, rfl, rfl⟩ | ⟨rfl, rfl, rfl⟩ <;> rfl
  rw [hexec]
  exact flagTo_writes f on s

/-- Settles O57: NOP is an Implied instruction whose operation changes nothing. -/
theorem nopDoesNothing : Obligations.NopDoesNothing :=
  ⟨⟨rfl, rfl⟩, fun s => exec_of_imp rfl rfl s⟩

/-! ## The illegal slots -/

/-- Under the policy `nop` no instruction is refused (R269, R270, R272). -/
theorem exec_of_policy_nop {i : Instr} {s : State} (hpolicy : s.cfg.illegalOpcodePolicy = .nop) :
    exec i s = .next (result i s) :=
  exec_next_iff.mpr ⟨.inr hpolicy, rfl⟩

/-- Settles O58: under the policy `nop` every instruction answers `result`, and an illegal slot's operation changes
nothing. -/
theorem illegalSlotsDoNothing : Obligations.IllegalSlotsDoNothing :=
  ⟨fun _ hslot => encode_of_opcode? (opcode?_nopStar.mpr ⟨hslot, rfl⟩),
    fun _ hslot => encode_of_opcode? (opcode?_ill.mpr ⟨hslot, rfl⟩),
    fun _ _ hpolicy => ⟨exec_of_policy_nop hpolicy, exec_of_policy_nop hpolicy⟩⟩

/-- An illegal slot is refused by its own opcode byte and the address before PC, or answers `result` (R272, D25). -/
theorem exec_illegal_of_opcode? {i : Instr} {op : Byte} (hop : i.opcode? = some op) (hill : isIllegal i = true)
    (s : State) :
    exec i s =
      if s.cfg.illegalOpcodePolicy = .refuse then .refused (.illegalOpcode op (s.pc - 1)) else .next (result i s) := by
  cases i with
  | nopStar slot => obtain ⟨-, rfl⟩ := opcode?_nopStar.mp hop; exact illegalSlot_eq ..
  | ill slot => obtain ⟨-, rfl⟩ := opcode?_ill.mp hop; exact illegalSlot_eq ..
  | _ => cases hill

/-- An instruction is illegal exactly when its opcode byte stands in R104 or R105 (R103). -/
theorem isIllegal_eq_isIllegalSlot {i : Instr} {op : Byte} (hop : i.opcode? = some op) :
    isIllegal i = isIllegalSlot op := by
  refine Bool.eq_iff_iff.mpr ⟨fun hill => ?listed, fun hslot => ?illegal⟩
  case listed =>
    rw [isIllegalSlot, Bool.or_eq_true]
    cases i with
    | nopStar slot => obtain ⟨hslot, rfl⟩ := opcode?_nopStar.mp hop; exact .inl hslot
    | ill slot => obtain ⟨hslot, rfl⟩ := opcode?_ill.mp hop; exact .inr hslot
    | _ => cases hill
  case illegal =>
    obtain ⟨hmnemonic, -⟩ := descriptor_of_opcode? hop
    by_contra hofficial
    obtain ⟨hn, hi⟩ := isIllegal_eq_false_iff.mp (eq_false_of_ne_true hofficial)
    rw [isIllegalSlot, Bool.or_eq_true] at hslot
    rcases hslot with hslot | hslot
    · obtain ⟨hnop, -⟩ := nopStar_slot hslot; exact hn (hmnemonic.symm.trans hnop)
    · obtain ⟨hill, -⟩ := ill_slot hslot; exact hi (hmnemonic.symm.trans hill)

/-- A dispatch is refused for an illegal slot's byte under the policy `refuse`, with that byte and its address, and
answers a next state otherwise (R123, R272). -/
theorem dispatch_eq (s : State) :
    dispatch s =
      if s.cfg.illegalOpcodePolicy = .refuse ∧ isIllegalSlot (s.load s.pc) = true then
        .refused (.illegalOpcode (s.load s.pc) s.pc)
      else .next (result (instrAt s) (afterFetch s)) := by
  have hop : (instrAt s).opcode? = some (s.load s.pc) := opcode?_decodeAt ..
  rw [← isIllegal_eq_isIllegalSlot hop, dispatch]
  cases hill : isIllegal (instrAt s) with
  | false => rw [exec_official hill, if_neg (by simp)]
  | true =>
    have haddress : (afterFetch s).pc - 1 = s.pc := BitVec.add_sub_cancel ..
    rw [exec_illegal_of_opcode? hop hill, haddress]
    simp only [and_true]
    rfl

/-- `clock()` raises no fault (R130). -/
theorem clock_ne_fault (s : State) (f : Fault) : clock s ≠ .fault f := by
  by_cases hc : s.cycles = 0
  · rw [clock_dispatch hc, dispatch_eq]
    split_ifs <;> exact nofun
  · rw [clock_idle hc]
    exact nofun

/-- `clock()` is refused exactly where it dispatches an illegal slot under the policy `refuse` (R120, R272). -/
theorem clock_refused_iff {s : State} {r : Refusal} :
    clock s = .refused r ↔
      s.cycles = 0 ∧ s.cfg.illegalOpcodePolicy = .refuse ∧ isIllegalSlot (s.load s.pc) = true ∧
        r = .illegalOpcode (s.load s.pc) s.pc := by
  by_cases hc : s.cycles = 0
  · rw [clock_dispatch hc, dispatch_eq]
    split_ifs with hstop
    · obtain ⟨hpolicy, hslot⟩ := hstop
      exact ⟨fun h => by cases h; exact ⟨hc, hpolicy, hslot, rfl⟩, fun ⟨_, _, _, hr⟩ => hr ▸ rfl⟩
    · exact ⟨nofun, fun ⟨_, hpolicy, hslot, _⟩ => absurd ⟨hpolicy, hslot⟩ hstop⟩
  · rw [clock_idle hc]
    exact ⟨nofun, fun ⟨hzero, _⟩ => absurd hzero hc⟩

/-- Settles O59: without a script the step is that `clock()`. -/
theorem refusePolicyRefusesIllegalSlots : Obligations.RefusePolicyRefusesIllegalSlots := by
  intro s hdriver hc hpolicy hslot
  rw [step_clock hdriver]
  exact clock_refused_iff.mpr ⟨hc, hpolicy, hslot, rfl⟩

end Sys2Proof.Machine
end

