-- ==== Sys2Proof/Proofs/Exceptions.lean ====
section
/-! SUPPORT. The driver's interrupt calls and the stops of the machine (60_exceptions.md R300 to R309): what a taken
`irq()` or `nmi()` leaves, and which driver's calls fault or are refused. -/

namespace Sys2Proof.Machine

/-! ## A taken interrupt -/

/-- The next state of a taken `irq()` or `nmi()` through a vector outside the stack page (R303 to R307). -/
theorem interruptEntry_of_vector {s : State} (h : s.mem.wf = true) {vector : Addr} (hv : 512 ≤ vector.toNat)
    (hv' : 512 ≤ (vector + 1).toNat) :
    interruptEntry vector s =
      { s with
        pc := s.readVector vector, sp := s.sp - 3, sr := interruptStatus s.sr, cycles := 7
        mem := (interruptEntry vector s).mem } :=
  congrArg (State.setCycles 7) (enterInterrupt_of_vector h s.pc (interruptCopy s.sr) (interruptStatus s.sr) hv hv')

theorem interruptEntry_sr (vector : Addr) (s : State) : (interruptEntry vector s).sr = interruptStatus s.sr := by
  rw [interruptEntry, State.setCycles_sr, enterInterrupt_eq]

/-- The live SR after an entry has every flag but I, B and U as before (R306, D9). -/
theorem flagsKept_interruptStatus (sr : Byte) : FlagsKept [.i, .b, .u] sr (interruptStatus sr) := by
  intro f hf; cases f <;> simp at hf ⊢

/-- The flags that an entry forces, and the ones it keeps. -/
theorem interruptEntry_flags (vector : Addr) (s : State) :
    (interruptEntry vector s).flag .i = true ∧ (interruptEntry vector s).flag .b = false ∧
      (interruptEntry vector s).flag .u = true ∧ FlagsKept [.i, .b, .u] s.sr (interruptEntry vector s).sr := by
  simp only [State.flag, interruptEntry_sr]
  exact ⟨getFlag_interruptStatus .., getFlag_interruptStatus .., getFlag_interruptStatus ..,
    flagsKept_interruptStatus _⟩

/-- A call that is taken between instructions enters through its vector (R304, R305). -/
theorem drive_irq_of_unmasked {s : State} (hc : s.cycles = 0) (hi : s.flag .i = false) :
    drive (.interrupt .irq) s = .next (interruptEntry irqVector s) := by
  rw [drive, interruptCall_eq, if_pos hc, if_pos rfl, if_neg (ne_true_of_eq_false hi)]

theorem drive_irq_of_masked {s : State} (hc : s.cycles = 0) (hi : s.flag .i = true) :
    drive (.interrupt .irq) s = .next s := by
  rw [drive, interruptCall_eq, if_pos hc, if_pos rfl, if_pos hi]

theorem drive_nmi {s : State} (hc : s.cycles = 0) :
    drive (.interrupt .nmi) s = .next (interruptEntry nmiVector s) := by
  rw [drive, interruptCall_eq, if_pos hc, if_neg nofun]

/-- Settles O14: with I = 0 the call is the entry through 0xFFFE. -/
theorem irqIsTakenUnlessMasked : Obligations.IrqIsTakenUnlessMasked := by
  refine fun s hc => ⟨drive_irq_of_masked hc, fun hi hwf => ⟨_, drive_irq_of_unmasked hc hi, ?state,
    stacksFrame_interruptEntry hwf _, interruptEntry_flags ..⟩⟩
  case state =>
    rw [interruptEntry_sr]
    exact interruptEntry_of_vector hwf (by decide) (by decide)

/-- Settles O15: for either value of I the call is the entry through 0xFFFA. -/
theorem nmiIsAlwaysTaken : Obligations.NmiIsAlwaysTaken := by
  refine fun s hc hwf => ⟨_, drive_nmi hc, ?state, stacksFrame_interruptEntry hwf _, interruptEntry_flags ..⟩
  case state =>
    rw [interruptEntry_sr]
    exact interruptEntry_of_vector hwf (by decide) (by decide)

/-! ## The stops -/

/-- `irq()` and `nmi()` stop the machine by the fault of R309, and only while an instruction is under way. -/
theorem interruptCall_fault_iff {k : InterruptCall} {s : State} {f : Fault} :
    interruptCall k s = .fault f ↔ s.cycles ≠ 0 ∧ f = .interruptMidInstruction k := by
  rw [interruptCall_eq]
  by_cases hc : s.cycles = 0
  · rw [if_pos hc]
    split_ifs <;> exact ⟨nofun, fun ⟨hne, _⟩ => absurd hc hne⟩
  · rw [if_neg hc]
    exact ⟨fun h => by cases h; exact ⟨hc, rfl⟩, fun ⟨_, hf⟩ => hf ▸ rfl⟩

theorem interruptCall_ne_refused (k : InterruptCall) (s : State) (r : Refusal) : interruptCall k s ≠ .refused r := by
  rw [interruptCall_eq]
  split_ifs <;> exact nofun

/-- Settles O16: the fault is the one that the call raises. -/
theorem interruptMidInstructionFaults : Obligations.InterruptMidInstructionFaults :=
  fun _ _ => interruptCall_fault_iff.trans (and_iff_left rfl)

theorem drive_fault_iff {call : DriverCall} {s : State} {f : Fault} :
    drive call s = .fault f ↔ ∃ k, call = .interrupt k ∧ s.cycles ≠ 0 ∧ f = .interruptMidInstruction k := by
  cases call with
  | clock => exact ⟨fun h => absurd h (clock_ne_fault s f), nofun⟩
  | reset => exact ⟨nofun, nofun⟩
  | interrupt k =>
    refine interruptCall_fault_iff.trans ⟨fun h => ⟨k, rfl, h⟩, fun ⟨_, hk, h⟩ => ?_⟩
    cases hk
    exact h

theorem drive_refused_iff {call : DriverCall} {s : State} {r : Refusal} :
    drive call s = .refused r ↔
      call = .clock ∧ s.cycles = 0 ∧ s.cfg.illegalOpcodePolicy = .refuse ∧ isIllegalSlot (s.load s.pc) = true ∧
        r = .illegalOpcode (s.load s.pc) s.pc := by
  cases call with
  | clock => exact clock_refused_iff.trans (and_iff_right rfl).symm
  | reset => exact ⟨nofun, nofun⟩
  | interrupt k => exact ⟨fun h => absurd h (interruptCall_ne_refused k s r), nofun⟩

/-- A step is the driver's next call, taken off the script (log 1). -/
theorem step_eq_drive_nextDriverCall (s : State) : step s = drive (nextDriverCall s) (s.setDriver s.driver.tail) := by
  cases h : s.driver with
  | nil =>
    have hscript : s.setDriver [] = s := by rw [← h]; rfl
    rw [step_clock h, nextDriverCall, h, List.tail_nil, hscript]
    rfl
  | cons call rest => rw [step_scripted h, nextDriverCall, h]; rfl

/-- Settles O17: no call's stop depends on the script, so a step stops as its next call does. -/
theorem machineStopsOnlyInTheTwoStatedWays : Obligations.MachineStopsOnlyInTheTwoStatedWays := by
  intro s
  rw [step_eq_drive_nextDriverCall]
  exact ⟨fun _ => drive_fault_iff, fun _ => drive_refused_iff⟩

end Sys2Proof.Machine
end

