-- ==== Sys2Proof/Proofs/ResetLatency.lean ====
section
/-! SUPPORT. The `clock()` calls after `reset()` (70_reset_and_hazards.md R340, R341). -/

namespace Sys2Proof.Machine

/-- Settles O10: `reset()` leaves 8 cycles, and as many calls only count them down. -/
theorem resetLatencyDispatchesNothing : Obligations.ResetLatencyDispatchesNothing := by
  refine fun s hdriver => ⟨fun k hk => ?run, rfl⟩
  case run =>
    have hscript : (resetCall s).driver = [] := hdriver
    have hcycles : k ≤ (resetCall s).cycles.toNat := hk
    exact (run_eq_clocks hscript k).trans (clocks_idle hcycles)

end Sys2Proof.Machine
end
